-- ==== Sys2Proof/Word.lean ====
section
/-! DEFINITION. The two sizes of data of the block: the 16-bit Word (00_scope.md R8, R10, R13), unsigned, the only unit its
instructions see, and the 8-bit code of the program image and the input channel (20_memory.md R55, 10_state.md R34). -/

namespace Sys2Proof

/-- A Word: "an unsigned 16-bit integer, value space 0..65535" (R8, R13). -/
abbrev Word := BitVec 16

/-- A byte of the program image, or a character code of the input channel (R34, R55). -/
abbrev Byte := BitVec 8

end Sys2Proof
end

