-- ==== Sys2Proof/Syntax.lean ====
section
/-! DEFINITION. The 22 instructions (30_encoding.md R92) and the three kinds of operand word (R83). An instruction holds its
operand words raw, as the decoder delivers them (R88): a word is classified where it is resolved (R84, R85, R91), and a
word that is never resolved is never classified (the target of a jump not taken). -/

namespace Sys2Proof

/-- One constructor per row of the opcode table, with its operand words a, b, c (R81, R92). -/
inductive Instr where
  | halt
  | set (a b : Word)
  | push (a : Word)
  | pop (a : Word)
  | eq (a b c : Word)
  | gt (a b c : Word)
  | jmp (a : Word)
  | jt (a b : Word)
  | jf (a b : Word)
  | add (a b c : Word)
  | mult (a b c : Word)
  | mod (a b c : Word)
  | and (a b c : Word)
  | or (a b c : Word)
  | not (a b : Word)
  | rmem (a b : Word)
  | wmem (a b : Word)
  | call (a : Word)
  | ret
  | out (a : Word)
  /-- the table's `in`, whose name is a word of Lean -/
  | inp (a : Word)
  | noop
  deriving DecidableEq, Repr

/-- The kinds of operand word (R83): LIT(v), REG(i), INV. -/
inductive Kind where
  | lit (v : Word)
  | reg (i : Fin 8)
  | inv
  deriving DecidableEq, Repr

/-- The mnemonic, as the opcode table spells it (R92). -/
def Instr.mnemonic : Instr → String
  | .halt => "halt" | .set _ _ => "set" | .push _ => "push" | .pop _ => "pop"
  | .eq _ _ _ => "eq" | .gt _ _ _ => "gt" | .jmp _ => "jmp" | .jt _ _ => "jt" | .jf _ _ => "jf"
  | .add _ _ _ => "add" | .mult _ _ _ => "mult" | .mod _ _ _ => "mod"
  | .and _ _ _ => "and" | .or _ _ _ => "or" | .not _ _ => "not"
  | .rmem _ _ => "rmem" | .wmem _ _ => "wmem" | .call _ => "call" | .ret => "ret"
  | .out _ => "out" | .inp _ => "in" | .noop => "noop"

/-- The operand words, in order (R81). -/
def Instr.operands : Instr → List Word
  | .halt | .ret | .noop => []
  | .push a | .pop a | .jmp a | .call a | .out a | .inp a => [a]
  | .set a b | .jt a b | .jf a b | .not a b | .rmem a b | .wmem a b => [a, b]
  | .eq a b c | .gt a b c | .add a b c | .mult a b c | .mod a b c | .and a b c | .or a b c => [a, b, c]

end Sys2Proof
end

