-- ==== Sys2Proof/Decode.lean ====
section
/-! DEFINITION. The instruction decoder (30_encoding.md R80 to R82, R88 to R92) and, after it, the encoder. The decoder reads
Words; `decodeBytes` reads them out of the bytes of an image, where alone the block has a byte order (20_memory.md R55). -/

namespace Sys2Proof

/-- Why words are no instruction. -/
inductive Reject where
  /-- there is no word to read as an opcode -/
  | noOpcodeWord
  /-- the opcode word is 22..65535 (R82, R89) -/
  | unknownOpcode (op : Word)
  /-- operand word k, counted from 1, is not there to be read (R90) -/
  | operandMissing (k : Nat)
  deriving DecidableEq, Repr

/-- The four formats (R81), each with the instruction its operand words make. -/
inductive Format where
  | f0 (i : Instr)
  | f1 (mk : Word → Instr)
  | f2 (mk : Word → Word → Instr)
  | f3 (mk : Word → Word → Word → Instr)

/-- The opcode map (R92): the whole 16-bit opcode word selects (R82). -/
def format (op : Word) : Option Format :=
  match op.toNat with
  | 0 => some (.f0 .halt)
  | 1 => some (.f2 .set)
  | 2 => some (.f1 .push)
  | 3 => some (.f1 .pop)
  | 4 => some (.f3 .eq)
  | 5 => some (.f3 .gt)
  | 6 => some (.f1 .jmp)
  | 7 => some (.f2 .jt)
  | 8 => some (.f2 .jf)
  | 9 => some (.f3 .add)
  | 10 => some (.f3 .mult)
  | 11 => some (.f3 .mod)
  | 12 => some (.f3 .and)
  | 13 => some (.f3 .or)
  | 14 => some (.f2 .not)
  | 15 => some (.f2 .rmem)
  | 16 => some (.f2 .wmem)
  | 17 => some (.f1 .call)
  | 18 => some (.f0 .ret)
  | 19 => some (.f1 .out)
  | 20 => some (.f1 .inp)
  | 21 => some (.f0 .noop)
  | _ => none

/-- The arity of a format (R81). -/
def Format.arity : Format → Nat
  | .f0 _ => 0
  | .f1 _ => 1
  | .f2 _ => 2
  | .f3 _ => 3

/-- `arity(op)` (R80, R92), told from the opcode word alone (R94); an unknown opcode has none. -/
def arity (op : Word) : Option Nat := (format op).map Format.arity

/-- Reads a format's operand words, raw (R88); what is left of the words comes back beside the instruction. -/
def Format.read : Format → List Word → Except Reject (Instr × List Word)
  | .f0 i, ws => .ok (i, ws)
  | .f1 mk, a :: ws => .ok (mk a, ws)
  | .f2 mk, a :: b :: ws => .ok (mk a b, ws)
  | .f3 mk, a :: b :: c :: ws => .ok (mk a b c, ws)
  | .f1 _, [] | .f2 _, [] | .f3 _, [] => .error (.operandMissing 1)
  | .f2 _, [_] | .f3 _, [_] => .error (.operandMissing 2)
  | .f3 _, [_, _] => .error (.operandMissing 3)

/-- The decoder (R88): the opcode word first, then as many raw operand words as its arity says. -/
def decodeWords : List Word → Except Reject (Instr × List Word)
  | [] => .error .noOpcodeWord
  | op :: ws =>
    match format op with
    | none => .error (.unknownOpcode op)
    | some f => f.read ws

/-- The Words of an image: byte 2a is the low byte of word a and byte 2a+1 the high one (R55). A last odd byte makes no word
(R66 refuses such an image before this is asked). -/
def wordsOfBytes : List Byte → List Word
  | lo :: hi :: bs => (hi ++ lo) :: wordsOfBytes bs
  | _ => []

/-- The bytes of a Word in an image: low byte first (R55). -/
def bytesOfWord (w : Word) : List Byte := [w.extractLsb' 0 8, w.extractLsb' 8 8]

/-- The decoder on the bytes of an image, with the bytes left over. -/
def decodeBytes (bs : List Byte) : Except Reject (Instr × List Byte) :=
  match decodeWords (wordsOfBytes bs) with
  | .ok (i, _) => .ok (i, bs.drop (2 * (1 + i.operands.length)))
  | .error r => .error r

/-- The words of an instruction given as `nbits` bits numbered from the first word's bit 0, with zeros above them: four words are
enough for every format (R81). -/
def wordsOfBits (nbits w : Nat) : List Word :=
  let v := w % 2 ^ nbits
  [BitVec.ofNat 16 v, BitVec.ofNat 16 (v / 2 ^ 16), BitVec.ofNat 16 (v / 2 ^ 32), BitVec.ofNat 16 (v / 2 ^ 48)]

/-- The instruction the decoder reads from those bits. -/
def decodeTableWord (nbits w : Nat) : Option Instr :=
  match decodeWords (wordsOfBits nbits w) with
  | .ok (i, _) => some i
  | .error _ => none

/-- The encoder: the words of an instruction, from the encoding line of each instruction's own rule. -/
def encode : Instr → List Word
  | .halt => [0]                    -- R120
  | .set a b => [1, a, b]           -- R130
  | .push a => [2, a]               -- R131
  | .pop a => [3, a]                -- R132
  | .eq a b c => [4, a, b, c]       -- R140
  | .gt a b c => [5, a, b, c]       -- R141
  | .jmp a => [6, a]                -- R151
  | .jt a b => [7, a, b]            -- R152
  | .jf a b => [8, a, b]            -- R153
  | .add a b c => [9, a, b, c]      -- R171
  | .mult a b c => [10, a, b, c]    -- R172
  | .mod a b c => [11, a, b, c]     -- R173
  | .and a b c => [12, a, b, c]     -- R174
  | .or a b c => [13, a, b, c]      -- R175
  | .not a b => [14, a, b]          -- R176
  | .rmem a b => [15, a, b]         -- R190
  | .wmem a b => [16, a, b]         -- R191
  | .call a => [17, a]              -- R154
  | .ret => [18]                    -- R155
  | .out a => [19, a]               -- R200
  | .inp a => [20, a]               -- R202
  | .noop => [21]                   -- R121

/-- The bytes of an instruction, as an image holds them (R55). -/
def encodeBytes (i : Instr) : List Byte := (encode i).flatMap bytesOfWord

end Sys2Proof
end

