-- ==== Sys2Proof/Config.lean ====
section
/-! DEFINITION. What an implementation fixes and the spec leaves open: the three parameters of 00_scope.md R9, and the exit
codes of 60_exceptions.md R225. Each value is a constant with no body, so that no proof can lean on it. The parameters that
an instruction reads (STACK_LIMIT, NOT_BIT15) are fields of `Machine.State`, and these constants are only their values in
`State.reset`: a statement about every state holds for every value of them. The fixed parameters of R8 stand as numerals
where the spec's pseudocode has them. -/

namespace Sys2Proof

/-- NOT_BIT15: what `not` does with bit 15 of an operand that has it set (R9, R176; 90_conflicts.md C1). -/
inductive NotBit15 where
  /-- bit 15 passes through (the opcode table's reading) -/
  | keep
  /-- bit 15 of the result is 0 (the arithmetic invariant's reading) -/
  | clear
  deriving DecidableEq, Repr, Inhabited

namespace Config

/-- STACK_LIMIT: `none`, or a number ≥ 1 (R9, R28). DESIGN CHOICE to leave it open here: log 5. -/
opaque stackLimit : Option ℕ+

/-- NOT_BIT15 (R9, R176). DESIGN CHOICE to leave it open here: log 6. -/
opaque notBit15 : NotBit15

/-- OUT_CHAR_MAP: what the terminal shows for an output value of 256 or more (R9, R35). The spec fixes it only below 256,
see `Machine.terminalShows`. Log 7. -/
opaque outCharMap : Word → List Byte

/-- The exit code of a fault with the given 4-bit cause code: "Which non-zero value is used is not in the source, and a model
must not assume one" (R225). Log 7. -/
opaque faultExitCode : BitVec 4 → ℕ+

/-- The exit code of a load error with the given 2-bit code (R225). Log 7. -/
opaque loadErrorExitCode : BitVec 2 → ℕ+

end Config

end Sys2Proof
end

