-- ==== Sys2Proof/Machine/State.lean ====
section
/-! DEFINITION. The state of the block: everything 10_state.md R20 and R41 give it, and the two parameters of 00_scope.md R9
that instructions read. -/

namespace Sys2Proof.Machine

/-- The memory, as the bytes an image would hold (20_memory.md R55): byte address 2a is the low byte of `M[a]`, 2a+1 the high
one. Only bytes that are not 0 are listed, in rising address order: unlisted memory is the zero fill of R40 and R64. No
instruction sees a byte (R52): Words are read and written in Machine/Ops.lean. Log 1. -/
abbrev Memory := List Host.Cell

/-- The run status (R31). -/
inductive Status where
  | running
  | halted
  | faulted
  deriving DecidableEq, Repr, Inhabited

/-- The fault causes, in the order of their codes 0 to 8 (60_exceptions.md R211). -/
inductive Cause where
  | none
  | unknownOpcode
  | invalidOperand
  | invalidDestination
  | outOfBounds
  | stackUnderflow
  | divideByZero
  | inputEnd
  | stackOverflow
  deriving DecidableEq, Repr, Inhabited

/-- The values of the `load_error` output (R41, R226). -/
inductive LoadError where
  | none
  | imageTooLarge
  | imageOddLength
  deriving DecidableEq, Repr, Inhabited

/-- The state of the block (R20). -/
structure State where
  /-- the register file `x[0..7]` (R21) -/
  regs : Vector Word 8
  /-- the instruction pointer (R25) -/
  pc : Word
  /-- the stack `S`, top first (R27) -/
  stack : List Word
  /-- the memory `M` (R37) -/
  mem : Memory
  /-- the run status (R31) -/
  status : Status
  /-- the fault record: the cause (R32, R213) -/
  faultCause : Cause
  /-- the fault record: the address of the faulting instruction's opcode word (R32, R213) -/
  faultPc : Word
  /-- the fault record: that opcode word (R32, R213) -/
  faultOp : Word
  /-- the input queue, oldest code first (R34) -/
  inq : List Byte
  /-- the end-of-input flag (R34) -/
  inEof : Bool
  /-- the output trace, oldest Word first (R35) -/
  outq : List Word
  /-- `load_error`; while it is not `none` the block is held in reset (R226, R241) -/
  loadError : LoadError
  /-- the parameter STACK_LIMIT (R9, R28): no step and no reset changes it -/
  stackLimit : Option ℕ+
  /-- the parameter NOT_BIT15 (R9, R176): no step and no reset changes it -/
  notBit15 : NotBit15
  deriving DecidableEq, Repr, Inhabited

/-- The reasons `Host.Outcome.fault` could carry: there are none. A fatal error of this block is an entry into status
Faulted that the spec describes whole (60_exceptions.md R214), so it is a next state, and no instruction ends a step in any
other way (log 2). -/
inductive Fault : Type
  deriving DecidableEq, Repr

/-- The reasons a step is refused. -/
inductive Refusal where
  /-- an instruction without a meaning yet: answered by `exec` only; safe. Every instruction has its meaning. -/
  | notModelled (mnemonic : String)
  /-- the block is held in reset after a load error and "takes no step" (R226): answered by `step` only; safe (log 4) -/
  | heldInReset (cause : LoadError)
  deriving DecidableEq, Repr

/-- The block after a reset (R40, R241, R242) with the empty image, which is legal (20_memory.md R64): every register 0,
memory all zero. The input channel is the host's: empty and open here, DESIGN CHOICE (log 9). The parameters are opaque
(log 5, log 6). -/
def State.reset : State where
  regs := Vector.replicate 8 0
  pc := 0
  stack := []
  mem := []
  status := .running
  faultCause := .none
  faultPc := 0
  faultOp := 0
  inq := []
  inEof := false
  outq := []
  loadError := .none
  stackLimit := Config.stackLimit
  notBit15 := Config.notBit15

end Sys2Proof.Machine

/-- What the block holds after a reset whose image failed to load, given the image and the state before: "status, registers
and `M` have no meaning: a model must not read them" (60_exceptions.md R226). A free value (log 4); `Machine.heldState` keeps
of it only what the spec does not fix. -/
opaque Sys2Proof.Config.contentsAfterLoadError : List Sys2Proof.Byte → Sys2Proof.Machine.State → Sys2Proof.Machine.State
end

