-- ==== Sys2Proof/Machine/Ops.lean ====
section
/-! DEFINITION. The named operations over the state: memory (20_memory.md), register file, stack, `pc`, output, the normal
halt (10_state.md R31) and taking a fault (60_exceptions.md R214). Each primitive of 00_scope.md R11 has one definition here. -/

namespace Sys2Proof.Machine

/-! ### Memory by bytes: one canonical form -/

/-- The byte at a byte address; an unlisted one is 0 (R40, R64). -/
def readByte : Memory → Nat → Byte
  | [], _ => 0
  | (k, b) :: m, a => if a = k then b else readByte m a

/-- Puts a cell before memory whose addresses are all higher; a zero byte is not listed. -/
def consByte (k : Nat) (b : Byte) (m : Memory) : Memory := if b = 0 then m else (k, b) :: m

/-- Writes the byte at a byte address and keeps the canonical form. -/
def writeByte (a : Nat) (v : Byte) : Memory → Memory
  | [] => consByte a v []
  | (k, b) :: m =>
    if a < k then consByte a v ((k, b) :: m)
    else if a = k then consByte a v m
    else (k, b) :: writeByte a v m

/-- The canonical form from byte address `lo` on: addresses rise strictly and lie within the 65536 bytes of 32768 Words (R50),
and no byte listed is 0. -/
def wfFrom (lo : Nat) : Memory → Bool
  | [] => true
  | (k, b) :: m => lo ≤ k && k < 65536 && b ≠ 0 && wfFrom (k + 1) m

/-- The canonical form of memory: equal contents are equal lists. -/
def Memory.wf (m : Memory) : Bool := wfFrom 0 m

/-! ### Memory by Words -/

/-- `M[a]`: byte 2a+1 is the high byte and byte 2a the low one (R55). -/
def readWord (m : Memory) (a : Nat) : Word := readByte m (2 * a + 1) ++ readByte m (2 * a)

/-- `M[a] <- v` (R52, R55). -/
def writeWord (a : Nat) (v : Word) (m : Memory) : Memory :=
  writeByte (2 * a + 1) (v.extractLsb' 8 8) (writeByte (2 * a) (v.extractLsb' 0 8) m)

/-- `MemRead(addr, 1)`: bounds-checked at the access (R52, R53). -/
def memRead (addr : Word) (s : State) : Except Cause Word :=
  if addr.toNat < 32768 then .ok (readWord s.mem addr.toNat) else .error .outOfBounds

/-- `MemWrite(addr, 1, v)`: bounds-checked at the access (R52, R53). -/
def memWrite (addr v : Word) (s : State) : Except Cause State :=
  if addr.toNat < 32768 then .ok { s with mem := writeWord addr.toNat v s.mem } else .error .outOfBounds

/-- The bytes of an image from byte address `k` on, zeros unlisted: the loader's copy and zero fill (R64). -/
def bytesAt (k : Nat) : List Byte → Memory
  | [] => []
  | b :: bs => consByte k b (bytesAt (k + 1) bs)

/-- Stores words at consecutive addresses from `a` on; a word that would lie beyond address 32767 is left out. -/
def storeWords (a : Nat) : List Word → Memory → Memory
  | [], m => m
  | w :: ws, m => storeWords (a + 1) ws (if a < 32768 then writeWord a w m else m)

/-- The up to `n` words from address `a` on, as far as memory goes (R88, R90). -/
def fetchWords (m : Memory) (a : Nat) : Nat → List Word
  | 0 => []
  | n + 1 => if a < 32768 then readWord m a :: fetchWords m (a + 1) n else []

/-! ### Registers, `pc`, output -/

/-- `x[i]` (R11, R21). -/
def reg (i : Fin 8) (s : State) : Word := s.regs[i]

/-- `x[i] <- v` (R11, R21); no register is hardwired (R22). -/
def setReg (i : Fin 8) (v : Word) (s : State) : State := { s with regs := s.regs.set i v }

/-- `pc <- t`: any 16-bit value (R25, R156). -/
def setPc (t : Word) (s : State) : State := { s with pc := t }

/-- `next = pc0 + 1 + arity` (R88). A step decodes only at `pc0 ≤ 32767`, so the sum is at most 32771 and 16 bits hold it
(log 11). -/
def nextPc (arity : Nat) (s : State) : Word := s.pc + BitVec.ofNat 16 (1 + arity)

/-- `pc <- next`: the fall-through of an instruction of the given arity (R150). -/
def advance (arity : Nat) (s : State) : State := setPc (nextPc arity s) s

/-- `outq <- outq ++ [v]`: one Word appended, never refused (R35, R200). -/
def emit (v : Word) (s : State) : State := { s with outq := s.outq ++ [v] }

/-! ### The stack -/

/-- A stack of this depth is full: `|S| = STACK_LIMIT` (R27, R28). The limit is at least 1 (R9), so the empty stack never is,
whatever the limit (log 12). -/
def stackFull (limit : Option ℕ+) : Nat → Bool
  | 0 => false
  | n + 1 =>
    match limit with
    | none => false
    | some l => (l : Nat) == n + 1

/-- `Push(v)` (R27, R28). -/
def pushWord (v : Word) (s : State) : Except Cause State :=
  if stackFull s.stackLimit s.stack.length then .error .stackOverflow else .ok { s with stack := v :: s.stack }

/-- `Empty()` and `Pop()` in one (R27): `none` iff the stack is empty. Each caller handles that case itself. -/
def popWord (s : State) : Option (Word × State) :=
  match s.stack with
  | [] => none
  | v :: vs => some (v, { s with stack := vs })

/-- `Peek()`: of the stack's contract only, "No instruction uses `Peek()`" (R27). -/
def peekWord (s : State) : Option Word := s.stack.head?

/-! ### How an instruction ends -/

/-- `halt_core()`: the normal end (R11, R31, R219). -/
def haltCore (s : State) : State := { s with status := .halted }

/-- `raise F`: fault entry (R213, R214). Taken in the state the instruction began in, so `s.pc` is `pc0`, and `pc <- pc0` leaves
it: a faulting instruction has made no change (R215). Nothing returns from a fault (R217): only reset leaves it (R244). -/
def raise (c : Cause) (s : State) : State :=
  { s with status := .faulted, faultCause := c, faultPc := s.pc, faultOp := readWord s.mem s.pc.toNat }

/-- The outcome of an instruction that began in `s`: its state if it completed, else the fault it raised, taken in `s`
(R214, R215). -/
def conclude (s : State) : Except Cause State → Host.Outcome State Fault Refusal
  | .ok t => .next t
  | .error c => .next (raise c s)

end Sys2Proof.Machine
end

