-- ==== Sys2Proof/Machine/Operands.lean ====
section
/-! DEFINITION. The value classifier and the two ways an operand word is resolved (30_encoding.md R83 to R86), with the shapes
that several instructions share. In every one of them the destination is resolved first and the value operands after it, in
order, all before any effect (R91). -/

namespace Sys2Proof.Machine

/-- The value classifier (R83). -/
def classify (v : Word) : Kind :=
  if v.toNat ≤ 32767 then .lit v
  else if h : v.toNat ≤ 32775 then .reg ⟨v.toNat - 32768, by omega⟩
  else .inv

/-- `ReadOp(v)`: the value of a value operand (R84); a register's contents are never classified again (R23). -/
def readOp (v : Word) (s : State) : Except Cause Word :=
  match classify v with
  | .lit n => .ok n
  | .reg i => .ok (reg i s)
  | .inv => .error .invalidOperand

/-- `DestOp(v)`: the register a destination operand names (R85). -/
def destOp (v : Word) : Except Cause (Fin 8) :=
  match classify v with
  | .reg i => .ok i
  | .lit _ => .error .invalidDestination
  | .inv => .error .invalidDestination

/-- The shape D, V (R86): `x[a] <- f(b)`, fall through. -/
def unaryOp (f : Word → Except Cause Word) (a b : Word) (s : State) : Except Cause State := do
  let d ← destOp a
  let vb ← readOp b s
  let r ← f vb
  return advance 2 (setReg d r s)

/-- The shape D, V, V (R86): `x[a] <- f(b, c)`, fall through. -/
def binaryOp (f : Word → Word → Except Cause Word) (a b c : Word) (s : State) : Except Cause State := do
  let d ← destOp a
  let vb ← readOp b s
  let vc ← readOp c s
  let r ← f vb vc
  return advance 3 (setReg d r s)

/-- The shape V, V* (R86, R91): jump to b if the condition a selects it, and only then resolve b. -/
def branchOp (selects : Word → Bool) (a b : Word) (s : State) : Except Cause State := do
  let c ← readOp a s
  if selects c then
    let t ← readOp b s
    return setPc t s
  else
    return advance 2 s

end Sys2Proof.Machine
end

