-- ==== Sys2Proof/Machine/Access.lean ====
section
/-! DEFINITION. Memory access: rmem, wmem (46_memory_access.md). The bounds check is the access's own, after both operands are
resolved (20_memory.md R53). -/

namespace Sys2Proof.Machine

/-- `rmem a b` (R190): the raw Word, not classified. -/
def execRmem (a b : Word) (s : State) : Host.Outcome State Fault Refusal :=
  conclude s (unaryOp (fun addr => memRead addr s) a b s)

/-- `wmem a b` (R191): a is a value, the address; an invalid b is reported before an address out of bounds. -/
def execWmem (a b : Word) (s : State) : Host.Outcome State Fault Refusal :=
  conclude s do
    let addr ← readOp a s
    let v ← readOp b s
    let t ← memWrite addr v s
    return advance 2 t

end Sys2Proof.Machine
end

