-- ==== Sys2Proof/Machine/Alu.lean ====
section
/-! DEFINITION. The ALU: add, mult, mod, and, or, not (45_alu.md). Its functions are of unsigned Words; add and mult are computed
exactly, on numbers, and then reduced modulo 32768 (R170). -/

namespace Sys2Proof.Machine

/-- The exact sum modulo 32768 (R171). -/
def aluAdd (vb vc : Word) : Word := BitVec.ofNat 16 ((vb.toNat + vc.toNat) % 32768)

/-- The exact product modulo 32768 (R172). -/
def aluMult (vb vc : Word) : Word := BitVec.ofNat 16 (vb.toNat * vc.toNat % 32768)

/-- The unsigned remainder of the full Words; a zero divisor raises DivideByZero (R173). -/
def aluMod (vb vc : Word) : Except Cause Word :=
  if vc.toNat = 0 then .error .divideByZero else .ok (BitVec.ofNat 16 (vb.toNat % vc.toNat))

/-- The 15-bit inversion; where bit 15 of the operand is set, the parameter NOT_BIT15 says what becomes of it (R176). -/
def aluNot (mode : NotBit15) (vb : Word) : Word :=
  let r := vb ^^^ 0x7FFF
  if vb.msb then
    match mode with
    | .keep => r
    | .clear => r &&& 0x7FFF
  else r

/-- `add a b c` (R171). -/
def execAdd (a b c : Word) (s : State) : Host.Outcome State Fault Refusal :=
  conclude s (binaryOp (fun vb vc => .ok (aluAdd vb vc)) a b c s)

/-- `mult a b c` (R172). -/
def execMult (a b c : Word) (s : State) : Host.Outcome State Fault Refusal :=
  conclude s (binaryOp (fun vb vc => .ok (aluMult vb vc)) a b c s)

/-- `mod a b c` (R173). -/
def execMod (a b c : Word) (s : State) : Host.Outcome State Fault Refusal :=
  conclude s (binaryOp aluMod a b c s)

/-- `and a b c` (R174). -/
def execAnd (a b c : Word) (s : State) : Host.Outcome State Fault Refusal :=
  conclude s (binaryOp (fun vb vc => .ok (vb &&& vc)) a b c s)

/-- `or a b c` (R175). -/
def execOr (a b c : Word) (s : State) : Host.Outcome State Fault Refusal :=
  conclude s (binaryOp (fun vb vc => .ok (vb ||| vc)) a b c s)

/-- `not a b` (R176). -/
def execNot (a b : Word) (s : State) : Host.Outcome State Fault Refusal :=
  conclude s (unaryOp (fun vb => .ok (aluNot s.notBit15 vb)) a b s)

end Sys2Proof.Machine
end

