-- ==== Sys2Proof/Machine/Flags.lean ====
section
/-! DEFINITION. The block has no flags and no condition codes (10_state.md R38): no instruction computes or reads one. What
stands in their place is the truth value that `eq` and `gt` write to a register, and the test that `jt` and `jf` make of a
value operand. -/

namespace Sys2Proof.Machine

/-- The Word of a truth value, 1 or 0 (R38, R140, R141). -/
def truthWord (b : Bool) : Word := if b then 1 else 0

/-- A value operand selects the jump of `jt` iff it is not 0, and that of `jf` iff it is (R152, R153). -/
def nonZero (v : Word) : Bool := v != 0

end Sys2Proof.Machine
end

