-- ==== Sys2Proof/Machine/Compare.lean ====
section
/-! DEFINITION. Comparisons: eq, gt (43_compare.md), of full 16-bit Words, unsigned. -/

namespace Sys2Proof.Machine

/-- `eq a b c` (R140). -/
def execEq (a b c : Word) (s : State) : Host.Outcome State Fault Refusal :=
  conclude s (binaryOp (fun vb vc => .ok (truthWord (vb == vc))) a b c s)

/-- `gt a b c` (R141). -/
def execGt (a b c : Word) (s : State) : Host.Outcome State Fault Refusal :=
  conclude s (binaryOp (fun vb vc => .ok (truthWord (decide (vb.toNat > vc.toNat)))) a b c s)

end Sys2Proof.Machine
end

