-- ==== Sys2Proof/Machine/Control.lean ====
section
/-! DEFINITION. Machine control: halt, noop (41_machine_control.md). -/

namespace Sys2Proof.Machine

/-- `halt` (R120): `pc <- next`, then the normal end. -/
def execHalt (s : State) : Host.Outcome State Fault Refusal :=
  conclude s (.ok (haltCore (advance 0 s)))

/-- `noop` (R121). -/
def execNoop (s : State) : Host.Outcome State Fault Refusal :=
  conclude s (.ok (advance 0 s))

end Sys2Proof.Machine
end

