-- ==== Sys2Proof/Machine/Data.lean ====
section
/-! DEFINITION. Data movement and stack: set, push, pop (42_data_and_stack.md). -/

namespace Sys2Proof.Machine

/-- `set a b` (R130). -/
def execSet (a b : Word) (s : State) : Host.Outcome State Fault Refusal :=
  conclude s (unaryOp (fun vb => .ok vb) a b s)

/-- `push a` (R131). -/
def execPush (a : Word) (s : State) : Host.Outcome State Fault Refusal :=
  conclude s do
    let v ← readOp a s
    let t ← pushWord v s
    return advance 1 t

/-- `pop a` (R132): the destination is resolved before the stack is looked at, and an empty stack is a fault. -/
def execPop (a : Word) (s : State) : Host.Outcome State Fault Refusal :=
  conclude s do
    let d ← destOp a
    match popWord s with
    | none => .error .stackUnderflow
    | some (v, t) => return advance 1 (setReg d v t)

end Sys2Proof.Machine
end

