-- ==== Sys2Proof/Machine/Flow.lean ====
section
/-! DEFINITION. The control-flow redirector: jmp, jt, jf, call, ret (44_control_flow.md R150 to R157). A target of 32768 or more
is no fault here: it becomes `pc`, and the next step ends the run (R156). -/

namespace Sys2Proof.Machine

/-- `jmp a` (R151). -/
def execJmp (a : Word) (s : State) : Host.Outcome State Fault Refusal :=
  conclude s do
    let t ← readOp a s
    return setPc t s

/-- `jt a b` (R152). -/
def execJt (a b : Word) (s : State) : Host.Outcome State Fault Refusal :=
  conclude s (branchOp nonZero a b s)

/-- `jf a b` (R153). -/
def execJf (a b : Word) (s : State) : Host.Outcome State Fault Refusal :=
  conclude s (branchOp (fun c => !nonZero c) a b s)

/-- `call a` (R154): the target is resolved before the push; the Word pushed is `next`. -/
def execCall (a : Word) (s : State) : Host.Outcome State Fault Refusal :=
  conclude s do
    let t ← readOp a s
    let u ← pushWord (nextPc 1 s) s
    return setPc t u

/-- `ret` (R155): an empty stack is a normal end, not a fault. -/
def execRet (s : State) : Host.Outcome State Fault Refusal :=
  conclude s (.ok (match popWord s with
    | none => haltCore (advance 0 s)
    | some (v, t) => setPc v t))

end Sys2Proof.Machine
end

