-- ==== Sys2Proof/Machine/Io.lean ====
section
/-! DEFINITION. Character I/O: out, in (47_io.md). -/

namespace Sys2Proof.Machine

/-- `out a` (R200): the full Word, whatever its size. -/
def execOut (a : Word) (s : State) : Host.Outcome State Fault Refusal :=
  conclude s do
    let v ← readOp a s
    return advance 1 (emit v s)

/-- `in a` (R202): takes one code; with none there it faults if the input has ended, and else waits: the step is not taken and
nothing changes (R203, log 3). -/
def execIn (a : Word) (s : State) : Host.Outcome State Fault Refusal :=
  conclude s do
    let d ← destOp a
    match s.inq with
    | ch :: rest => return advance 1 (setReg d (ch.zeroExtend 16) { s with inq := rest })
    | [] => if s.inEof then .error .inputEnd else return s

end Sys2Proof.Machine
end

