-- ==== Sys2Proof/Machine/Fetch.lean ====
section
/-! DEFINITION. Decoding at `pc` (30_encoding.md R87 step 1, R88 to R90). -/

namespace Sys2Proof.Machine

/-- `pc ≥ 32768`: control ran off the end of memory (R87). -/
def atEndOfMemory (s : State) : Bool := 32768 ≤ s.pc.toNat

/-- `Decode(pc0)` (R88): the instruction at `pc`, or the fault of R89 or R90. Four words are read where memory has them; reading
has no effect (R57), and only the words of the instruction's own arity reach it (log 13). -/
def fetch (s : State) : Except Cause Instr :=
  match decodeWords (fetchWords s.mem s.pc.toNat 4) with
  | .ok (i, _) => .ok i
  | .error (.unknownOpcode _) => .error .unknownOpcode
  | .error (.operandMissing _) => .error .outOfBounds
  | .error .noOpcodeWord => .error .outOfBounds

/-- The words of an instruction given as bits, stored where the next step decodes. -/
def placeAtPc (nbits w : Nat) (s : State) : State :=
  { s with mem := storeWords s.pc.toNat (wordsOfBits nbits w) s.mem }

end Sys2Proof.Machine
end

