-- ==== Sys2Proof/Machine/Step.lean ====
section
/-! DEFINITION. One step of the block (30_encoding.md R87; 10_state.md R33; 60_exceptions.md R216, R226). -/

namespace Sys2Proof.Machine

/-- A step: held in reset, the block takes none (R226, log 4); Halted or Faulted, it changes nothing (R33, log 3); Running, it
halts if `pc ≥ 32768`, else decodes at `pc` and executes, and a fault of either is taken (R87, R214). -/
def step (s : State) : Host.Outcome State Fault Refusal :=
  match s.loadError with
  | .imageTooLarge => .refused (.heldInReset .imageTooLarge)
  | .imageOddLength => .refused (.heldInReset .imageOddLength)
  | .none =>
    match s.status with
    | .halted => .next s
    | .faulted => .next s
    | .running =>
      if atEndOfMemory s then .next (haltCore s)
      else
        match fetch s with
        | .ok i => exec i s
        | .error c => conclude s (.error c)

/-- The state with an instruction's words stored where `step` decodes next (log 8, log 14). -/
def State.withFetchWord (s : State) (nbits w : Nat) : State := placeAtPc nbits w s

end Sys2Proof.Machine
end

