-- ==== Sys2Proof/Machine/Channel.lean ====
section
/-! DEFINITION. The host's two moves on the input channel (10_state.md R34, R36; 47_io.md R203). -/

namespace Sys2Proof.Machine

/-- The host appends codes to `inq`; once `in_eof` is set "the host appends nothing" (R34), so the move then changes nothing
(log 10). -/
def supply (codes : List Byte) (s : State) : State :=
  if s.inEof then s else { s with inq := s.inq ++ codes }

/-- The host sets `in_eof`, which nothing clears but reset (R34). -/
def closeInput (s : State) : State := { s with inEof := true }

/-- Codes that end with a whole line, by the line feed 10 (R36), or are none. -/
def wholeLines (codes : List Byte) : Bool :=
  match codes.getLast? with
  | none => true
  | some c => c == 10

end Sys2Proof.Machine
end

