-- ==== Sys2Proof/Machine/Launch.lean ====
section
/-! DEFINITION. The loader (20_memory.md R64 to R67) and reset with an image (70_reset_and_hazards.md R240 to R244,
60_exceptions.md R226). -/

namespace Sys2Proof.Machine

/-- `load(image)` (R64, R66): the image's bytes from address 0 on, then zeros; or a load error, by the image's length alone. -/
def load (image : List Byte) : Except LoadError Memory :=
  if image.length > 65536 then .error .imageTooLarge
  else if image.length % 2 = 1 then .error .imageOddLength
  else .ok (bytesAt 0 image)

/-- The state a successful reset leaves (R40, R241). The input channel takes the host's launch inputs (R40); the parameters are
the implementation's and stay; no other state survives (R244). -/
def freshState (m : Memory) (inq : List Byte) (inEof : Bool) (s : State) : State :=
  { State.reset with mem := m, inq := inq, inEof := inEof, stackLimit := s.stackLimit, notBit15 := s.notBit15 }

/-- The block held in reset after a load error: only `load_error`, the host's channel and the parameters are what they are; the
rest has no meaning, and is free (R226, log 4). -/
def heldState (e : LoadError) (image : List Byte) (inq : List Byte) (inEof : Bool) (s : State) : State :=
  { Config.contentsAfterLoadError image s with
    loadError := e, inq := inq, inEof := inEof, stackLimit := s.stackLimit, notBit15 := s.notBit15 }

/-- `reset(image)` (R241), in any state (R244), with the host's launch inputs. -/
def resetWith (image inq : List Byte) (inEof : Bool) (s : State) : State :=
  match load image with
  | .ok m => freshState m inq inEof s
  | .error e => heldState e image inq inEof s

/-- A launch, with each parameter as an argument (R9). -/
def launch (stackLimit : Option ℕ+) (notBit15 : NotBit15) (image inq : List Byte) (inEof : Bool) : State :=
  resetWith image inq inEof { State.reset with stackLimit := stackLimit, notBit15 := notBit15 }

end Sys2Proof.Machine
end

