-- ==== Sys2Proof/Machine/Ports.lean ====
section
/-! DEFINITION. What the host sees of the block: the output ports (10_state.md R41, R31, R32, R39), the pulses of a step
(R35, 47_io.md R200, R202), the exit code (60_exceptions.md R225) and the terminal (10_state.md R35). -/

namespace Sys2Proof.Machine

/-- `status[1:0]` (R31); code 3 is unused. -/
def Status.code : Status → BitVec 2
  | .running => 0
  | .halted => 1
  | .faulted => 2

/-- `fault_cause` (R211); codes 9 to 15 are unused. -/
def Cause.code : Cause → BitVec 4
  | .none => 0
  | .unknownOpcode => 1
  | .invalidOperand => 2
  | .invalidDestination => 3
  | .outOfBounds => 4
  | .stackUnderflow => 5
  | .divideByZero => 6
  | .inputEnd => 7
  | .stackOverflow => 8

/-- `load_error` (R41, R226). -/
def LoadError.code : LoadError → BitVec 2
  | .none => 0
  | .imageTooLarge => 1
  | .imageOddLength => 2

/-- The operand word names a register (R83). -/
def namesRegister (w : Word) : Bool :=
  match classify w with
  | .reg _ => true
  | .lit _ => false
  | .inv => false

/-- The instruction at `pc` is an `in` with a valid destination. -/
def inAtPc (s : State) : Bool :=
  match fetch s with
  | .ok (.inp a) => namesRegister a
  | _ => false

/-- `wait_in` (R39, R203): a Running block is at such an `in`, with no code and no end of input. R39 names only `pc`, `M` and the
input channel: that the port is 0 for a block that is Halted or Faulted is DEDUCED, and that it is 0 for one held after a load
error is DESIGN CHOICE (log 19). -/
def waitIn (s : State) : Bool :=
  s.loadError == .none && s.status == .running && !atEndOfMemory s && inAtPc s && s.inq.isEmpty && !s.inEof

/-- The block takes a step (R87, R203, R226, R253): it is Running, not held in reset and not waiting. -/
def ready (s : State) : Bool := s.loadError == .none && s.status == .running && !waitIn s

/-- `in_data` with `in_valid` (R41): the head of `inq`, offered by the host. -/
def inData (s : State) : Option Byte := s.inq.head?

/-- The output ports that are functions of the state (R41). -/
structure Outputs where
  loadError : BitVec 2
  status : BitVec 2
  faultCause : BitVec 4
  faultPc : Word
  faultOp : Word
  waitIn : Bool
  deriving DecidableEq, Repr

/-- The output ports (R41). -/
def outputs (s : State) : Outputs where
  loadError := s.loadError.code
  status := s.status.code
  faultCause := s.faultCause.code
  faultPc := s.faultPc
  faultOp := s.faultOp
  waitIn := waitIn s

/-- The pulses of a step that leads from `s` to `t`: `in_take`, and `out_data` where `out_valid` (R41, R200). -/
structure Pulses where
  inTake : Bool
  outData : Option Word
  deriving DecidableEq, Repr

/-- The pulses of the step taken in `s` (R41): a code was taken, a Word was appended. -/
def pulses (s : State) : Pulses :=
  match step s with
  | .next t => { inTake := t.inq.length < s.inq.length, outData := (t.outq.drop s.outq.length).head? }
  | .fault _ | .refused _ => { inTake := false, outData := none }

/-- What the terminal shows for an output value, given OUT_CHAR_MAP (R9, R35): "a value below 256 is that byte". -/
def terminalShows (outCharMap : Word → List Byte) (v : Word) : List Byte :=
  if v.toNat < 256 then [v.setWidth 8] else outCharMap v

/-- What the terminal has shown (R35). -/
def terminal (s : State) : List Byte := s.outq.flatMap (terminalShows Config.outCharMap)

/-- The exit code the host reports (R31, R225), once there is one: 0 after a normal end, some number that is not 0 after a
fault or a load error. -/
def exitCode (s : State) : Option Nat :=
  match s.loadError with
  | .none =>
    match s.status with
    | .running => none
    | .halted => some 0
    | .faulted => some (Config.faultExitCode s.faultCause.code)
  | .imageTooLarge => some (Config.loadErrorExitCode 1)
  | .imageOddLength => some (Config.loadErrorExitCode 2)

end Sys2Proof.Machine
end

