-- ==== Sys2Proof/Machine/Events.lean ====
section
/-! DEFINITION. Everything that can happen to the block: its own step, and the host's moves (10_state.md R34, R41;
60_exceptions.md R218; 70_reset_and_hazards.md R244). The host moves between steps: a step is atomic (00_scope.md R7). -/

namespace Sys2Proof.Machine

/-- "Nothing outside the block can change its state during a run except the host's input channel and reset" (R218). -/
inductive Event where
  | step
  | supply (codes : List Byte)
  | closeInput
  | reset (image inq : List Byte) (inEof : Bool)
  deriving DecidableEq, Repr

/-- What an event does. -/
def react (e : Event) (s : State) : Host.Outcome State Fault Refusal :=
  match e with
  | .step => step s
  | .supply codes => .next (supply codes s)
  | .closeInput => .next (closeInput s)
  | .reset image inq inEof => .next (resetWith image inq inEof s)

/-- The state after the first n events of a schedule; a step that is refused changes nothing (R226). -/
def follow (events : Nat → Event) (s : State) : Nat → State
  | 0 => s
  | n + 1 =>
    match react (events n) (follow events s n) with
    | .next t => t
    | .fault _ | .refused _ => follow events s n

end Sys2Proof.Machine
end

