-- ==== Sys2Proof/Safety.lean ====
section
/-! DEFINITION. The terms in which claims speak of runs: how a run ends (70_reset_and_hazards.md R254), fairness (R253), the
host's line contract (10_state.md R36), and the invariant of the block's state. -/

namespace Sys2Proof.Safety

open Sys2Proof.Machine

/-- "A run ends when status becomes Halted, the good end, or Faulted, the bad end" (R254). -/
def ended (s : State) : Prop := s.status = .halted ∨ s.status = .faulted

/-- The bad end. A run is safe if it never gets there. -/
def failed (s : State) : Prop := s.status = .faulted

/-- Weak fairness of the block's step (R253): a block that is ready from some point on takes a step after it. -/
def WeaklyFair (events : Nat → Event) (s : State) : Prop :=
  ∀ n, (∀ k, n ≤ k → ready (follow events s k) = true) → ∃ k, n ≤ k ∧ events k = .step

/-- The host's line contract (R36): after a supply that leaves a line open, the host supplies the rest of it, up to its line
feed, with nothing but steps and supplies between. DESIGN CHOICE: it binds supplies only, not a line that the launch inputs
leave open (log 20). -/
def LineContract (events : Nat → Event) : Prop :=
  ∀ n codes, events n = .supply codes → wholeLines codes = false →
    ∃ k more, n < k ∧ events k = .supply more ∧ 10 ∈ more ∧
      ∀ j, n < j → j < k → events j = .step ∨ ∃ c, events j = .supply c

/-- The invariant of a block that is not held in reset. -/
structure Invariant (s : State) : Prop where
  /-- memory is in its canonical form, within the 32768 Words of R50 -/
  memWf : s.mem.wf = true
  /-- the stack is within STACK_LIMIT (R27, R28) -/
  stackBounded : ∀ l : ℕ+, s.stackLimit = some l → s.stack.length ≤ l
  /-- the fault record is as reset left it while status is not Faulted (R32, R40) -/
  recordClear : s.status ≠ .faulted → s.faultCause = .none ∧ s.faultPc = 0 ∧ s.faultOp = 0
  /-- while status is Faulted the record names a cause, the address `pc` kept, and the opcode word there (R32, R213, R214) -/
  recordValid : s.status = .faulted →
    s.faultCause ≠ .none ∧ s.faultPc = s.pc ∧ s.pc.toNat < 32768 ∧ s.faultOp = readWord s.mem s.pc.toNat

end Sys2Proof.Safety
end

