-- ==== Sys2Proof/WellFormed.lean ====
section
/-! DEFINITION. Which instructions have only operand words that their positions can resolve (30_encoding.md R83, R85, R86): no
operand word is invalid, and the destination, where the opcode has one, is a register. An instruction that is not well-formed
still decodes and still runs: it raises InvalidOperand or InvalidDestination where the bad word is resolved (R84, R85, R93),
and completes where it is not (the target of a jump not taken, R91). Beside it, the notation of R95. -/

namespace Sys2Proof

/-- An operand word that names a register: 32768..32775 (R83). -/
def isRegisterWord (w : Word) : Bool := 32768 ≤ w.toNat && w.toNat ≤ 32775

/-- An operand word that is a literal or names a register: 0..32775 (R83). -/
def isValueWord (w : Word) : Bool := w.toNat ≤ 32775

/-- The operand a destination-writing instruction writes: always its first, for the twelve opcodes marked D in the table of
R86. -/
def Instr.destination : Instr → Option Word
  | .set a _ | .pop a | .eq a _ _ | .gt a _ _ | .add a _ _ | .mult a _ _ | .mod a _ _ | .and a _ _ | .or a _ _
  | .not a _ | .rmem a _ | .inp a => some a
  | .halt | .push _ | .jmp _ | .jt _ _ | .jf _ _ | .wmem _ _ | .call _ | .ret | .out _ | .noop => none

/-- Check 1: the destination, if there is one, is a register word (R85). -/
def Instr.destinationOk (i : Instr) : Bool :=
  match i.destination with
  | some a => isRegisterWord a
  | none => true

/-- Check 2: no operand word is invalid (R83). -/
def Instr.operandsOk (i : Instr) : Bool := i.operands.all isValueWord

/-- Both checks: every operand word can be resolved in its position. -/
def Instr.wellFormed (i : Instr) : Bool := i.destinationOk && i.operandsOk

/-- One operand in that notation: `reg<N>` or a decimal literal (R95); an invalid word has none. -/
def operandText (w : Word) : Option String :=
  if w.toNat ≤ 32767 then some (toString w.toNat)
  else if w.toNat ≤ 32775 then some ("reg" ++ toString (w.toNat - 32768))
  else none

/-- The instruction in that notation: the mnemonic, then its operands, separated by spaces (R95). -/
def Instr.text (i : Instr) : Option String :=
  (i.operands.mapM operandText).map fun ts => " ".intercalate (i.mnemonic :: ts)

end Sys2Proof
end

