-- ==== Sys2Proof/Certificates/Slice0/Obligations.lean ====
section
/-! DEFINITION. The statements for the provers. The words they share come first: what an operand word names and is worth, in
the numbers of 30_encoding.md R83, and what it is for words to stand at `pc`. They are written without the model's own
operand resolution, so that a statement about an instruction says what the spec's rule says. -/

namespace Sys2Proof.Claims

open Sys2Proof.Machine

/-- The outcomes of an instruction or a step. -/
abbrev Result := Host.Outcome State Fault Refusal

/-- The operand word names register d: 32768 + d (R83). -/
abbrev Names (w : Word) (d : Fin 8) : Prop := w.toNat = 32768 + d.val

/-- The operand word is no register word: a literal or invalid (R83, R85). -/
abbrev NamesNone (w : Word) : Prop := w.toNat < 32768 ∨ 32775 < w.toNat

/-- The operand word is worth v: a literal itself, a register its contents (R83, R84). -/
abbrev Worth (s : State) (w v : Word) : Prop :=
  (w.toNat ≤ 32767 ∧ v = w) ∨ ∃ i : Fin 8, w.toNat = 32768 + i.val ∧ v = s.regs[i]

/-- The operand word is invalid: 32776..65535 (R83). -/
abbrev Worthless (w : Word) : Prop := 32775 < w.toNat

/-- The outcome is a fault with this cause: status Faulted, which is a next state. What else a fault records, and that it
changes nothing more, is `Obligations.AFaultChangesOnlyStatusAndRecord`. -/
def Faults (c : Cause) (o : Result) : Prop := ∃ t, o = .next t ∧ t.status = .faulted ∧ t.faultCause = c

/-- The stack has room for one more Word: it is not at STACK_LIMIT (R27, R28). -/
def Room (s : State) : Prop := ∀ l : ℕ+, s.stackLimit = some l → s.stack.length ≠ l

/-- The stack is full: it is at STACK_LIMIT (R27, R28). -/
def Full (s : State) : Prop := ∃ l : ℕ+, s.stackLimit = some l ∧ s.stack.length = l

/-- These words stand in memory from `pc` on, all below 32768. -/
abbrev CodeAt (s : State) (ws : List Word) : Prop :=
  ∀ k (h : k < ws.length), s.pc.toNat + k < 32768 ∧ readWord s.mem (s.pc.toNat + k) = ws[k]

/-- The block takes steps: it is not held in reset and status is Running. -/
abbrev Running (s : State) : Prop := s.loadError = .none ∧ s.status = .running

/-- The state a fault leaves (60_exceptions.md R213, R214, which are the spec's decisions D6 and D7): status, the record, and
nothing else; `pc` keeps the address of the faulting instruction. -/
def faultedWith (c : Cause) (s : State) : State :=
  { s with status := .faulted, faultCause := c, faultPc := s.pc, faultOp := readWord s.mem s.pc.toNat }

/-- The rule of an instruction `op a b c` that writes `f b c` to register a and falls through: its effect, with everything it
leaves as it was, and its operand faults in the order a, b, c. -/
def WritesOfTwo (op : Word → Word → Word → Instr) (f : Word → Word → Word) : Prop :=
  ∀ (s : State) (a b c : Word),
    (∀ d vb vc, Names a d → Worth s b vb → Worth s c vc →
      exec (op a b c) s = .next { s with regs := s.regs.set d (f vb vc), pc := s.pc + 4 }) ∧
    (NamesNone a → Faults .invalidDestination (exec (op a b c) s)) ∧
    (∀ d, Names a d → Worthless b → Faults .invalidOperand (exec (op a b c) s)) ∧
    (∀ d vb, Names a d → Worth s b vb → Worthless c → Faults .invalidOperand (exec (op a b c) s))

/-- The causes of 60_exceptions.md R212 that an instruction can raise while it executes; the decoder's own faults
(UnknownOpcode, and OutOfBounds on an operand fetch) come before execution. -/
def mayRaise : Instr → List Cause
  | .halt | .noop | .ret => []
  | .set _ _ | .eq _ _ _ | .gt _ _ _ | .add _ _ _ | .mult _ _ _ | .and _ _ _ | .or _ _ _ | .not _ _ =>
    [.invalidOperand, .invalidDestination]
  | .mod _ _ _ => [.invalidOperand, .invalidDestination, .divideByZero]
  | .push _ | .call _ => [.invalidOperand, .stackOverflow]
  | .jmp _ | .jt _ _ | .jf _ _ | .out _ => [.invalidOperand]
  | .rmem _ _ => [.invalidOperand, .invalidDestination, .outOfBounds]
  | .wmem _ _ => [.invalidOperand, .outOfBounds]
  | .pop _ => [.invalidDestination, .stackUnderflow]
  | .inp _ => [.invalidDestination, .inputEnd]

/-- The operand that is a jump target (R86). -/
def target : Instr → Option Word
  | .jmp a | .call a => some a
  | .jt _ b | .jf _ b => some b
  | .halt | .set _ _ | .push _ | .pop _ | .eq _ _ _ | .gt _ _ _ | .add _ _ _ | .mult _ _ _ | .mod _ _ _
  | .and _ _ _ | .or _ _ _ | .not _ _ | .rmem _ _ | .wmem _ _ | .ret | .out _ | .inp _ | .noop => none

/-- Pushing Words one after another. -/
def pushAll : List Word → State → Except Cause State
  | [], s => .ok s
  | v :: vs, s =>
    match pushWord v s with
    | .ok t => pushAll vs t
    | .error c => .error c

/-- Popping n times: the Words in the order they come, and the state after. -/
def popMany : Nat → State → Option (List Word × State)
  | 0, s => some ([], s)
  | n + 1, s =>
    match popWord s with
    | none => none
    | some (v, t) => (popMany n t).map fun r => (v :: r.1, r.2)

end Sys2Proof.Claims

open Sys2Proof Sys2Proof.Machine Sys2Proof.Claims Sys2Proof.Safety

/-! ### Encoding and operands -/

/-- 30_encoding.md R83: "Every operand word v (16 bits) is classified into exactly one of three kinds". -/
def Obligations.ClassifierSplitsOperandWordsByRange : Prop :=
  ∀ v : Word,
    (v.toNat ≤ 32767 → classify v = .lit v) ∧
    (∀ i : Fin 8, v.toNat = 32768 + i.val → classify v = .reg i) ∧
    (32776 ≤ v.toNat → classify v = .inv)

/-- R84: a value operand is the literal itself, the register's current Word as it is, or InvalidOperand. -/
def Obligations.ValueOperandIsLiteralOrRegisterContents : Prop :=
  ∀ (s : State) (w : Word),
    (w.toNat ≤ 32767 → readOp w s = .ok w) ∧
    (∀ i : Fin 8, w.toNat = 32768 + i.val → readOp w s = .ok s.regs[i]) ∧
    (32776 ≤ w.toNat → readOp w s = .error .invalidOperand)

/-- R85: a destination operand is a register word; a literal or an invalid word is InvalidDestination. -/
def Obligations.DestinationOperandMustNameARegister : Prop :=
  ∀ w : Word,
    (∀ i : Fin 8, w.toNat = 32768 + i.val → destOp w = .ok i) ∧
    (w.toNat ≤ 32767 ∨ 32776 ≤ w.toNat → destOp w = .error .invalidDestination)

/-- Tier 3, decode and encode agree, on the bytes of an image (R55, R80, R88): every operand of every instruction, at every
value, comes back, and so do the bytes after it. -/
def Obligations.DecodingEncodedBytesGivesTheInstructionBack : Prop :=
  ∀ (i : Instr) (rest : List Byte), decodeBytes (encodeBytes i ++ rest) = .ok (i, rest)

/-- No two instructions share their words: what the decoder reads an instruction from is its encoding (R80, R82, R88). -/
def Obligations.DecodedWordsAreTheInstructionsEncoding : Prop :=
  ∀ (ws rest : List Word) (i : Instr), decodeWords ws = .ok (i, rest) → ws = encode i ++ rest

/-- The encodings written out in the instructions' own rules (R121, R130, R132, R140, R152, R171, R176, R190, R191, R154,
R200) decode to those instructions. -/
def Obligations.SampleWordsDecodeToTheirInstructions : Prop :=
  decodeWords [21] = .ok (.noop, []) ∧
  decodeWords [1, 32768, 5] = .ok (.set 32768 5, []) ∧
  decodeWords [3, 32769] = .ok (.pop 32769, []) ∧
  decodeWords [4, 32768, 5, 6] = .ok (.eq 32768 5 6, []) ∧
  decodeWords [7, 32768, 100] = .ok (.jt 32768 100, []) ∧
  decodeWords [9, 32768, 32769, 4] = .ok (.add 32768 32769 4, []) ∧
  decodeWords [14, 32768, 0] = .ok (.not 32768 0, []) ∧
  decodeWords [15, 32770, 100] = .ok (.rmem 32770 100, []) ∧
  decodeWords [16, 100, 42] = .ok (.wmem 100 42, []) ∧
  decodeWords [17, 9] = .ok (.call 9, []) ∧
  decodeWords [19, 65] = .ok (.out 65, [])

/-- R82, R94: the whole opcode word selects; 22 values and no others are opcodes, and each tells from the opcode word alone
how many words follow it. The instruction decoded is the one whose encoding begins with that word, and its operands are those
words, raw (R88). -/
def Obligations.OpcodeWordAloneTellsWhetherAndHowFar : Prop :=
  ∀ (op : Word) (ws : List Word),
    (22 ≤ op.toNat → decodeWords (op :: ws) = .error (.unknownOpcode op)) ∧
    (op.toNat < 22 → ∃ n, n ≤ 3 ∧ arity op = some n ∧
      (n ≤ ws.length → ∃ i, decodeWords (op :: ws) = .ok (i, ws.drop n) ∧
        (encode i).head? = some op ∧ i.operands = ws.take n) ∧
      (ws.length < n → decodeWords (op :: ws) = .error (.operandMissing (ws.length + 1))))

/-- An instruction whose operand words all resolve in their positions can raise only its one execution check (R91, R216
point 5): never InvalidOperand, never InvalidDestination. -/
def Obligations.WellFormedInstructionsRaiseNoOperandFault : Prop :=
  ∀ (i : Instr) (s t : State), i.wellFormed = true → s.status ≠ .faulted → exec i s = .next t →
    t.status = .faulted → t.faultCause ≠ .invalidOperand ∧ t.faultCause ≠ .invalidDestination

/-! ### The step -/

/-- R87, R88: where the words at `pc` are an instruction's, the step of a Running block is that instruction, executed in the
state as it stands (`pc` at its opcode word; it moves `pc` itself). Nothing is added around it. -/
def Obligations.StepExecutesTheInstructionAtPc : Prop :=
  ∀ (s : State) (i : Instr), Running s → CodeAt s (encode i) → step s = exec i s

/-- R87 step 1: at `pc ≥ 32768` the run ends normally, and `pc` keeps its value. -/
def Obligations.EndOfMemoryHaltsAndKeepsPc : Prop :=
  ∀ s : State, Running s → 32768 ≤ s.pc.toNat → step s = .next { s with status := .halted }

/-- R89 (the spec's decision D20; the record by D6): an opcode word 22..65535 is UnknownOpcode, and `pc` is not advanced. -/
def Obligations.UnknownOpcodeFaultsWithoutAdvancing : Prop :=
  ∀ s : State, Running s → s.pc.toNat < 32768 → 22 ≤ (readWord s.mem s.pc.toNat).toNat →
    step s = .next (faultedWith .unknownOpcode s)

/-- R90 (which the spec derives; the record by D6): an instruction whose operand words reach address 32768 is OutOfBounds. -/
def Obligations.OperandWordPastMemoryFaultsOutOfBounds : Prop :=
  ∀ (s : State) (n : Nat), Running s → s.pc.toNat < 32768 → arity (readWord s.mem s.pc.toNat) = some n →
    32768 ≤ s.pc.toNat + n → step s = .next (faultedWith .outOfBounds s)

/-- R33: "Halted and Faulted are absorbing." A step not taken is answered by the same state (log 3). -/
def Obligations.StoppedBlockChangesNothing : Prop :=
  ∀ s : State, s.loadError = .none → s.status = .halted ∨ s.status = .faulted → step s = .next s

/-- R226: after a load error the block "takes no step". That the model says so by a refusal is its own choice (log 4). -/
def Obligations.HeldBlockTakesNoStep : Prop :=
  ∀ s : State, s.loadError ≠ .none → step s = .refused (.heldInReset s.loadError)

/-- R87: "A step either completes, leaving a new state; or raises a fault, leaving the Faulted state …; or is not taken at
all". Each is a next state here (log 2, log 3), so a block not held in reset always has one. -/
def Obligations.EveryStepOfALoadedBlockAnswersAState : Prop :=
  ∀ s : State, s.loadError = .none → ∃ t, step s = .next t

/-- R213, R214 (decisions D6 and D7), R215 (which the spec derives): whatever faults, only status and the record change, the
record is the address and the opcode word at `pc`, and `pc` stays there. -/
def Obligations.AFaultChangesOnlyStatusAndRecord : Prop :=
  ∀ s t : State, Running s → step s = .next t → t.status = .faulted → t = faultedWith t.faultCause s

/-- R212 (which the spec derives): an instruction raises no cause but those its row lists; halt, noop and ret raise none. -/
def Obligations.InstructionsRaiseOnlyTheirListedCauses : Prop :=
  ∀ (i : Instr) (s t : State), s.status ≠ .faulted → exec i s = .next t → t.status = .faulted →
    t.faultCause ∈ mayRaise i

/-- R219 (decision D16 on `pc`): "Three events end a run normally": `pc ≥ 32768`, `halt`, and `ret` on an empty stack; and they
change nothing but status and, the last two, `pc`. -/
def Obligations.OnlyThreeEventsEndARunNormally : Prop :=
  ∀ s t : State, Running s → step s = .next t → t.status = .halted →
    (32768 ≤ s.pc.toNat ∧ t = { s with status := .halted }) ∨
    ((readWord s.mem s.pc.toNat = 0 ∨ (readWord s.mem s.pc.toNat = 18 ∧ s.stack = [])) ∧
      t = { s with status := .halted, pc := s.pc + 1 })

/-- R54, R67: "After the load, `M` changes only through `wmem`": a step that changes memory is a `wmem`, and it changes the one
Word its address operand gives, to what its value operand is worth; every byte outside that Word reads as before. -/
def Obligations.MemoryChangesOnlyThroughWmem : Prop :=
  ∀ s t : State, s.mem.wf = true → step s = .next t →
    t.mem = s.mem ∨
    ∃ a b addr v, CodeAt s [16, a, b] ∧ Worth s a addr ∧ Worth s b v ∧ addr.toNat < 32768 ∧
      readWord t.mem addr.toNat = v ∧
      ∀ k, k ≠ 2 * addr.toNat → k ≠ 2 * addr.toNat + 1 → readByte t.mem k = readByte s.mem k

/-- R29: "Only push, pop, call and ret reach it, each with exactly one `Push` or one `Pop`". -/
def Obligations.OnlyFourInstructionsReachTheStack : Prop :=
  ∀ (i : Instr) (s t : State), exec i s = .next t →
    t.stack = s.stack ∨
    (((∃ a, i = .push a) ∨ ∃ a, i = .call a) ∧ ∃ v, t.stack = v :: s.stack) ∨
    (((∃ a, i = .pop a) ∨ i = .ret) ∧ ∃ v, s.stack = v :: t.stack)

/-- R22: "No instruction reads or writes a register implicitly": a register that changed is the one the destination operand
names. -/
def Obligations.OnlyTheNamedDestinationRegisterChanges : Prop :=
  ∀ (i : Instr) (s t : State) (r : Fin 8), exec i s = .next t → t.regs[r] ≠ s.regs[r] →
    ∃ a, i.destination = some a ∧ Names a r

/-- R34, R35: only `out` writes `outq`, one Word at its end; only `in` reads the input, one code at its head; no instruction
touches `in_eof`, `load_error` or the parameters of R9. -/
def Obligations.ChannelsMoveOnlyByInAndOut : Prop :=
  ∀ (i : Instr) (s t : State), exec i s = .next t →
    (t.outq = s.outq ∨ ∃ a v, i = .out a ∧ Worth s a v ∧ t.outq = s.outq ++ [v]) ∧
    (t.inq = s.inq ∨ ∃ a c, i = .inp a ∧ s.inq = c :: t.inq) ∧
    t.inEof = s.inEof ∧ t.loadError = s.loadError ∧ t.stackLimit = s.stackLimit ∧ t.notBit15 = s.notBit15

/-- R150: the new `pc` of an instruction that completes is `next`, a resolved target, or the popped Word. The one exception is
an `in` that waits (R203), which changes nothing at all. -/
def Obligations.NewPcIsNextTargetOrPoppedWord : Prop :=
  ∀ (i : Instr) (s t : State), s.status ≠ .faulted → exec i s = .next t → t.status ≠ .faulted →
    t.pc = s.pc + BitVec.ofNat 16 (1 + i.operands.length) ∨
    (∃ w, target i = some w ∧ Worth s w t.pc) ∨
    (i = .ret ∧ ∃ vs, s.stack = t.pc :: vs) ∨
    ((∃ a, i = .inp a) ∧ t = s)

/-- R156 (decision D19): a jump to a register's Word of 32768 or more is no fault; `pc` takes it, and the next step ends the
run normally. -/
def Obligations.JumpPastMemoryEndsTheRunAtTheNextStep : Prop :=
  ∀ (s : State) (a : Word) (r : Fin 8), Running s → CodeAt s [6, a] → Names a r → 32768 ≤ (s.regs[r]).toNat →
    step s = .next { s with pc := s.regs[r] } ∧
    step { s with pc := s.regs[r] } = .next { s with pc := s.regs[r], status := .halted }

/-- R62, R252: a `wmem` over the very next opcode word is what the next step executes. Here the Word stored is the whole of an
instruction without operands. -/
def Obligations.AStoreIsSeenByTheNextFetch : Prop :=
  ∀ (s : State) (a b addr v : Word) (i : Instr), Running s → s.mem.wf = true → CodeAt s [16, a, b] →
    Worth s a addr → Worth s b v → addr.toNat = s.pc.toNat + 3 → addr.toNat < 32768 → encode i = [v] →
    ∃ t, step s = .next t ∧ t.pc = addr ∧ step t = exec i t

/-- R35: no instruction reads the output trace: what was output before changes nothing of what a step does. -/
def Obligations.EarlierOutputInfluencesNothing : Prop :=
  ∀ (s t : State) (earlier : List Word), step s = .next t →
    step { s with outq := earlier ++ s.outq } = .next { t with outq := earlier ++ t.outq }

/-! ### The invariant -/

/-- Tier 3: every step keeps memory canonical, the stack within STACK_LIMIT (R27, R28), the fault record clear while status is
not Faulted and telling of the instruction at `pc` while it is (R32, R213). From every state, not only from reset. -/
def Obligations.EveryStepKeepsTheInvariant : Prop :=
  ∀ s t : State, Invariant s → step s = .next t → Invariant t

/-- The state after reset has the invariant, whatever the parameters are. -/
def Obligations.ResetStateHasTheInvariant : Prop := Invariant State.reset

/-- Every event keeps the invariant, the host's moves and reset among them, unless it leaves the block held in reset (R226). -/
def Obligations.EveryEventKeepsTheInvariant : Prop :=
  ∀ (e : Event) (s t : State), Invariant s → react e s = .next t → t.loadError = .none → Invariant t

/-! ### Reset and the loader -/

/-- R24, R30: registers 0 and stack empty after a reset that loads, from whatever state. -/
def Obligations.ResetClearsRegistersAndStack : Prop :=
  ∀ (image inq : List Byte) (eof : Bool) (s : State), (resetWith image inq eof s).loadError = .none →
    (∀ i : Fin 8, (resetWith image inq eof s).regs[i] = 0) ∧ (resetWith image inq eof s).stack = []

/-- R40, R64, R240, R241 (decisions D4, D6, D22): a reset with an image of at most 65536 bytes, an even number of them, leaves
`pc` 0, Running, no record, no output, the host's input, and memory the image, little-endian, then zeros. -/
def Obligations.ResetLoadsTheImageAndStartsAtZero : Prop :=
  ∀ (image inq : List Byte) (eof : Bool) (s : State), image.length ≤ 65536 → image.length % 2 = 0 →
    let t := resetWith image inq eof s
    t.pc = 0 ∧ t.status = .running ∧ t.faultCause = .none ∧ t.faultPc = 0 ∧ t.faultOp = 0 ∧ t.outq = [] ∧
    t.inq = inq ∧ t.inEof = eof ∧ t.loadError = .none ∧ t.stackLimit = s.stackLimit ∧ t.notBit15 = s.notBit15 ∧
    ∀ a, a < 32768 → readWord t.mem a = image.getD (2 * a + 1) 0 ++ image.getD (2 * a) 0

/-- R64, R66, R226 (decision D14): an image over 65536 bytes, else one of odd length, does not load; `load_error` says which,
and the block takes no step. -/
def Obligations.UnloadableImageLeavesTheBlockHeld : Prop :=
  ∀ (image inq : List Byte) (eof : Bool) (s : State),
    (65536 < image.length →
      (resetWith image inq eof s).loadError = .imageTooLarge ∧ (outputs (resetWith image inq eof s)).loadError = 1) ∧
    (image.length ≤ 65536 → image.length % 2 = 1 →
      (resetWith image inq eof s).loadError = .imageOddLength ∧ (outputs (resetWith image inq eof s)).loadError = 2) ∧
    (65536 < image.length ∨ image.length % 2 = 1 → ∀ t, step (resetWith image inq eof s) ≠ .next t)

/-! ### Machine control -/

/-- 41_machine_control.md R120 (`pc` by decision D16): `pc` moves past it and the run ends normally; nothing else changes. -/
def Obligations.HaltEndsTheRunNormally : Prop :=
  ∀ s : State, exec .halt s = .next { s with pc := s.pc + 1, status := .halted }

/-- R121. -/
def Obligations.NoopOnlyAdvancesPc : Prop :=
  ∀ s : State, exec .noop s = .next { s with pc := s.pc + 1 }

/-! ### Data movement and stack -/

/-- 42_data_and_stack.md R130. -/
def Obligations.SetCopiesAValueToARegister : Prop :=
  ∀ (s : State) (a b : Word),
    (∀ d v, Names a d → Worth s b v → exec (.set a b) s = .next { s with regs := s.regs.set d v, pc := s.pc + 3 }) ∧
    (NamesNone a → Faults .invalidDestination (exec (.set a b) s)) ∧
    (∀ d, Names a d → Worthless b → Faults .invalidOperand (exec (.set a b) s))

/-- R131. -/
def Obligations.PushPutsAValueOnTop : Prop :=
  ∀ (s : State) (a : Word),
    (∀ v, Worth s a v → Room s → exec (.push a) s = .next { s with stack := v :: s.stack, pc := s.pc + 2 }) ∧
    (Worthless a → Faults .invalidOperand (exec (.push a) s)) ∧
    (∀ v, Worth s a v → Full s → Faults .stackOverflow (exec (.push a) s))

/-- R132. -/
def Obligations.PopTakesTheTopOrUnderflows : Prop :=
  ∀ (s : State) (a : Word),
    (∀ d v vs, Names a d → s.stack = v :: vs →
      exec (.pop a) s = .next { s with regs := s.regs.set d v, stack := vs, pc := s.pc + 2 }) ∧
    (NamesNone a → Faults .invalidDestination (exec (.pop a) s)) ∧
    (∀ d, Names a d → s.stack = [] → exec (.pop a) s = .next (faultedWith .stackUnderflow s))

/-- 10_state.md R27: "pushing a sequence `[v1..vn]` then popping `n` times yields `[vn..v1]`", and the stack is as before, where
no push meets STACK_LIMIT. -/
def Obligations.PoppingReturnsThePushedSequenceReversed : Prop :=
  ∀ (s : State) (vs : List Word), (∀ l : ℕ+, s.stackLimit = some l → s.stack.length + vs.length ≤ l) →
    ∃ t, pushAll vs s = .ok t ∧ popMany vs.length t = some (vs.reverse, s)

/-! ### Comparisons -/

/-- 43_compare.md R140. -/
def Obligations.EqWritesWhetherWordsAreEqual : Prop :=
  WritesOfTwo .eq fun vb vc => if vb = vc then 1 else 0

/-- R141: unsigned. -/
def Obligations.GtWritesWhetherWordIsGreaterUnsigned : Prop :=
  WritesOfTwo .gt fun vb vc => if vc.toNat < vb.toNat then 1 else 0

/-! ### Control flow -/

/-- 44_control_flow.md R151. -/
def Obligations.JmpSetsPcToItsTarget : Prop :=
  ∀ (s : State) (a : Word),
    (∀ t, Worth s a t → exec (.jmp a) s = .next { s with pc := t }) ∧
    (Worthless a → Faults .invalidOperand (exec (.jmp a) s))

/-- R152: the target is resolved only if the jump is taken; a jump not taken completes whatever the target word is. -/
def Obligations.JtJumpsIffItsConditionIsNotZero : Prop :=
  ∀ (s : State) (a b : Word),
    (∀ c t, Worth s a c → c ≠ 0 → Worth s b t → exec (.jt a b) s = .next { s with pc := t }) ∧
    (∀ c, Worth s a c → c = 0 → exec (.jt a b) s = .next { s with pc := s.pc + 3 }) ∧
    (Worthless a → Faults .invalidOperand (exec (.jt a b) s)) ∧
    (∀ c, Worth s a c → c ≠ 0 → Worthless b → Faults .invalidOperand (exec (.jt a b) s))

/-- R153: likewise, for a condition that is zero. -/
def Obligations.JfJumpsIffItsConditionIsZero : Prop :=
  ∀ (s : State) (a b : Word),
    (∀ c t, Worth s a c → c = 0 → Worth s b t → exec (.jf a b) s = .next { s with pc := t }) ∧
    (∀ c, Worth s a c → c ≠ 0 → exec (.jf a b) s = .next { s with pc := s.pc + 3 }) ∧
    (Worthless a → Faults .invalidOperand (exec (.jf a b) s)) ∧
    (∀ c, Worth s a c → c = 0 → Worthless b → Faults .invalidOperand (exec (.jf a b) s))

/-- R154: the Word pushed is `pc0 + 2`; a call that faults pushes nothing and leaves `pc`. -/
def Obligations.CallPushesNextAndJumps : Prop :=
  ∀ (s : State) (a : Word),
    (∀ t, Worth s a t → Room s → exec (.call a) s = .next { s with stack := (s.pc + 2) :: s.stack, pc := t }) ∧
    (Worthless a → exec (.call a) s = .next (faultedWith .invalidOperand s)) ∧
    (∀ t, Worth s a t → Full s → exec (.call a) s = .next (faultedWith .stackOverflow s))

/-- R155 (`pc` of the empty case by decision D16): `ret` goes to the popped Word, and on an empty stack is `halt`. -/
def Obligations.RetGoesToThePoppedWordOrHalts : Prop :=
  ∀ s : State,
    (∀ v vs, s.stack = v :: vs → exec .ret s = .next { s with stack := vs, pc := v }) ∧
    (s.stack = [] → exec .ret s = .next { s with pc := s.pc + 1, status := .halted } ∧ exec .ret s = exec .halt s)

/-- R154, R155: a `call` and the `ret` that meets the stack it left come back to the address after the call, with the stack as
it was. -/
def Obligations.RetAfterCallReturnsPastTheCall : Prop :=
  ∀ (s : State) (a t : Word), Worth s a t → Room s →
    ∃ u, exec (.call a) s = .next u ∧ u.pc = t ∧ exec .ret u = .next { s with pc := s.pc + 2 }

/-! ### ALU -/

/-- 45_alu.md R171: the exact sum modulo 32768. -/
def Obligations.AddWritesTheSumModulo32768 : Prop :=
  WritesOfTwo .add fun vb vc => BitVec.ofNat 16 ((vb.toNat + vc.toNat) % 32768)

/-- R172: the exact product modulo 32768. -/
def Obligations.MultWritesTheProductModulo32768 : Prop :=
  WritesOfTwo .mult fun vb vc => BitVec.ofNat 16 ((vb.toNat * vc.toNat) % 32768)

/-- R173 (the zero divisor by decision D8): the unsigned remainder of the full Words; a zero divisor is DivideByZero and leaves
the destination as it was. -/
def Obligations.ModWritesTheRemainderOrFaults : Prop :=
  ∀ (s : State) (a b c : Word),
    (∀ d vb vc, Names a d → Worth s b vb → Worth s c vc → vc ≠ 0 →
      exec (.mod a b c) s =
        .next { s with regs := s.regs.set d (BitVec.ofNat 16 (vb.toNat % vc.toNat)), pc := s.pc + 4 }) ∧
    (∀ d vb, Names a d → Worth s b vb → Worth s c 0 → exec (.mod a b c) s = .next (faultedWith .divideByZero s)) ∧
    (NamesNone a → Faults .invalidDestination (exec (.mod a b c) s)) ∧
    (∀ d, Names a d → Worthless b → Faults .invalidOperand (exec (.mod a b c) s)) ∧
    (∀ d vb, Names a d → Worth s b vb → Worthless c → Faults .invalidOperand (exec (.mod a b c) s))

/-- R174: all 16 bits. -/
def Obligations.AndWritesTheBitwiseAnd : Prop :=
  WritesOfTwo .and fun vb vc => vb &&& vc

/-- R175: all 16 bits. -/
def Obligations.OrWritesTheBitwiseOr : Prop :=
  WritesOfTwo .or fun vb vc => vb ||| vc

/-- R176 (bit 15 by the open parameter of decision D9, a field of the state, so for each value of it): 32767 - b below 32768;
where bit 15 of b is set, bits 14..0 are inverted and bit 15 passes through or is cleared. -/
def Obligations.NotInvertsFifteenBits : Prop :=
  ∀ (s : State) (a b : Word),
    (∀ d vb, Names a d → Worth s b vb → ∃ r : Word,
      exec (.not a b) s = .next { s with regs := s.regs.set d r, pc := s.pc + 3 } ∧
      (vb.toNat < 32768 → r.toNat = 32767 - vb.toNat) ∧
      (32768 ≤ vb.toNat → s.notBit15 = .keep → r.toNat = 32768 + (65535 - vb.toNat)) ∧
      (32768 ≤ vb.toNat → s.notBit15 = .clear → r.toNat = 65535 - vb.toNat)) ∧
    (NamesNone a → Faults .invalidDestination (exec (.not a b) s)) ∧
    (∀ d, Names a d → Worthless b → Faults .invalidOperand (exec (.not a b) s))

/-- R176: "`not (not x) == x` for all `x` in `0..32767`", and under `keep` for all 65536 Words: running `not` twice on one
register gives its Word back. -/
def Obligations.NotTwiceGivesTheWordBack : Prop :=
  ∀ (s : State) (a : Word) (d : Fin 8), Names a d → (s.regs[d]).toNat < 32768 ∨ s.notBit15 = .keep →
    ∃ t, exec (.not a a) s = .next t ∧ exec (.not a a) t = .next { s with pc := s.pc + 3 + 3 }

/-! ### Memory access -/

/-- 46_memory_access.md R190: the raw Word at an address below 32768; above, OutOfBounds, after both operands. -/
def Obligations.RmemLoadsTheAddressedWord : Prop :=
  ∀ (s : State) (a b : Word),
    (∀ d addr, Names a d → Worth s b addr → addr.toNat < 32768 →
      exec (.rmem a b) s = .next { s with regs := s.regs.set d (readWord s.mem addr.toNat), pc := s.pc + 3 }) ∧
    (NamesNone a → Faults .invalidDestination (exec (.rmem a b) s)) ∧
    (∀ d, Names a d → Worthless b → Faults .invalidOperand (exec (.rmem a b) s)) ∧
    (∀ d addr, Names a d → Worth s b addr → 32768 ≤ addr.toNat → Faults .outOfBounds (exec (.rmem a b) s))

/-- R191, in memory of canonical form (`EveryStepKeepsTheInvariant`): the Word at the address that operand a is worth becomes
what operand b is worth, and no other byte of memory changes; an invalid b is reported before an address out of bounds. -/
def Obligations.WmemStoresOneWordAndNothingElse : Prop :=
  ∀ (s : State) (a b : Word), s.mem.wf = true →
    (∀ addr v, Worth s a addr → Worth s b v → addr.toNat < 32768 →
      ∃ m : Memory, exec (.wmem a b) s = .next { s with mem := m, pc := s.pc + 3 } ∧
        readWord m addr.toNat = v ∧
        (∀ c, c ≠ addr.toNat → readWord m c = readWord s.mem c) ∧
        ∀ k, k ≠ 2 * addr.toNat → k ≠ 2 * addr.toNat + 1 → readByte m k = readByte s.mem k) ∧
    (Worthless a → Faults .invalidOperand (exec (.wmem a b) s)) ∧
    (∀ addr, Worth s a addr → Worthless b → Faults .invalidOperand (exec (.wmem a b) s)) ∧
    (∀ addr v, Worth s a addr → Worth s b v → 32768 ≤ addr.toNat → Faults .outOfBounds (exec (.wmem a b) s))

/-! ### Character I/O -/

/-- 47_io.md R200 (decision D11): the whole Word, appended, and never refused. -/
def Obligations.OutAppendsTheWholeWord : Prop :=
  ∀ (s : State) (a : Word),
    (∀ v, Worth s a v → exec (.out a) s = .next { s with outq := s.outq ++ [v], pc := s.pc + 2 }) ∧
    (Worthless a → Faults .invalidOperand (exec (.out a) s))

/-- R202 (8-bit codes by D12, InputEnd by D13, the record it leaves by D6): one code, zero-extended; with none, InputEnd if the
input has ended, and else the step is not taken (R203; the model's answer is the same state, log 3). A bad destination faults
before any wait. -/
def Obligations.InTakesOneCodeWaitsOrFaults : Prop :=
  ∀ (s : State) (a : Word),
    (∀ d ch rest, Names a d → s.inq = ch :: rest → ∃ v : Word, v.toNat = ch.toNat ∧
      exec (.inp a) s = .next { s with regs := s.regs.set d v, inq := rest, pc := s.pc + 2 }) ∧
    (∀ d, Names a d → s.inq = [] → s.inEof = true → exec (.inp a) s = .next (faultedWith .inputEnd s)) ∧
    (∀ d, Names a d → s.inq = [] → s.inEof = false → exec (.inp a) s = .next s) ∧
    (NamesNone a → Faults .invalidDestination (exec (.inp a) s))

/-- R203: a block that waits stays as it is, `wait_in` is 1, and the host's two moves lift the wait: a code of 8 bits (D12), which
the next step takes, or the end of input, on which it faults InputEnd (D13) and leaves the record of D6. That a wait is
answered by the same state is log 3. -/
def Obligations.AWaitIsLiftedByTheHostsTwoMoves : Prop :=
  ∀ (s : State) (a : Word) (d : Fin 8), Running s → CodeAt s [20, a] → Names a d → s.inq = [] → s.inEof = false →
    step s = .next s ∧ waitIn s = true ∧
    (∀ ch rest, ∃ v : Word, v.toNat = ch.toNat ∧
      step (supply (ch :: rest) s) = .next { s with regs := s.regs.set d v, inq := rest, pc := s.pc + 2 }) ∧
    step (closeInput s) = .next (faultedWith .inputEnd (closeInput s))

/-- R31, R32, R39, R41, R211 (decisions D3, D6, D7, D14): the ports show the state in the spec's codes, and `wait_in` is 1 exactly
when a Running block is at an `in` with a valid destination, no code and no end of input. That it is 0 for a block that is
Halted, Faulted or held is log 19. -/
def Obligations.OutputPortsShowTheStateInItsCodes : Prop :=
  ∀ s : State,
    ((outputs s).loadError = match s.loadError with | .none => 0 | .imageTooLarge => 1 | .imageOddLength => 2) ∧
    ((outputs s).status = match s.status with | .running => 0 | .halted => 1 | .faulted => 2) ∧
    ((outputs s).faultCause = match s.faultCause with
      | .none => 0 | .unknownOpcode => 1 | .invalidOperand => 2 | .invalidDestination => 3 | .outOfBounds => 4
      | .stackUnderflow => 5 | .divideByZero => 6 | .inputEnd => 7 | .stackOverflow => 8) ∧
    (outputs s).faultPc = s.faultPc ∧ (outputs s).faultOp = s.faultOp ∧
    ((outputs s).waitIn = true ↔
      Running s ∧ s.inq = [] ∧ s.inEof = false ∧ ∃ a d, CodeAt s [20, a] ∧ Names a d)
end

