-- ==== Sys2Proof/Laws/PerInstr.lean ====
section
/-! SUPPORT. Statements made for every instruction, one lemma per constructor of `Instr` (LAWS.json names the families). -/

namespace Sys2Proof.Laws

/-! ### The decoder reads back the encoder's words, and leaves what follows them -/

/-- Decoding an instruction's words gives the instruction and the words after it. -/
def RoundTrip.Statement (i : Instr) : Prop := ∀ ws, decodeWords (encode i ++ ws) = .ok (i, ws)

theorem RoundTrip.halt : RoundTrip.Statement .halt := fun _ => rfl
theorem RoundTrip.set (a b : Word) : RoundTrip.Statement (.set a b) := fun _ => rfl
theorem RoundTrip.push (a : Word) : RoundTrip.Statement (.push a) := fun _ => rfl
theorem RoundTrip.pop (a : Word) : RoundTrip.Statement (.pop a) := fun _ => rfl
theorem RoundTrip.eq (a b c : Word) : RoundTrip.Statement (.eq a b c) := fun _ => rfl
theorem RoundTrip.gt (a b c : Word) : RoundTrip.Statement (.gt a b c) := fun _ => rfl
theorem RoundTrip.jmp (a : Word) : RoundTrip.Statement (.jmp a) := fun _ => rfl
theorem RoundTrip.jt (a b : Word) : RoundTrip.Statement (.jt a b) := fun _ => rfl
theorem RoundTrip.jf (a b : Word) : RoundTrip.Statement (.jf a b) := fun _ => rfl
theorem RoundTrip.add (a b c : Word) : RoundTrip.Statement (.add a b c) := fun _ => rfl
theorem RoundTrip.mult (a b c : Word) : RoundTrip.Statement (.mult a b c) := fun _ => rfl
theorem RoundTrip.mod (a b c : Word) : RoundTrip.Statement (.mod a b c) := fun _ => rfl
theorem RoundTrip.and (a b c : Word) : RoundTrip.Statement (.and a b c) := fun _ => rfl
theorem RoundTrip.or (a b c : Word) : RoundTrip.Statement (.or a b c) := fun _ => rfl
theorem RoundTrip.not (a b : Word) : RoundTrip.Statement (.not a b) := fun _ => rfl
theorem RoundTrip.rmem (a b : Word) : RoundTrip.Statement (.rmem a b) := fun _ => rfl
theorem RoundTrip.wmem (a b : Word) : RoundTrip.Statement (.wmem a b) := fun _ => rfl
theorem RoundTrip.call (a : Word) : RoundTrip.Statement (.call a) := fun _ => rfl
theorem RoundTrip.ret : RoundTrip.Statement .ret := fun _ => rfl
theorem RoundTrip.out (a : Word) : RoundTrip.Statement (.out a) := fun _ => rfl
theorem RoundTrip.inp (a : Word) : RoundTrip.Statement (.inp a) := fun _ => rfl
theorem RoundTrip.noop : RoundTrip.Statement .noop := fun _ => rfl

/-! ### An instruction is one opcode word and as many operand words as its arity, four words at most (R80, R81) -/

/-- The opcode word's arity is the number of operand words, and they follow it. -/
def Length.Statement (i : Instr) : Prop :=
  ∃ op, encode i = op :: i.operands ∧ arity op = some i.operands.length ∧ i.operands.length ≤ 3

theorem Length.halt : Length.Statement .halt := ⟨_, rfl, rfl, show 0 ≤ 3 by decide⟩
theorem Length.set (a b : Word) : Length.Statement (.set a b) := ⟨_, rfl, rfl, show 2 ≤ 3 by decide⟩
theorem Length.push (a : Word) : Length.Statement (.push a) := ⟨_, rfl, rfl, show 1 ≤ 3 by decide⟩
theorem Length.pop (a : Word) : Length.Statement (.pop a) := ⟨_, rfl, rfl, show 1 ≤ 3 by decide⟩
theorem Length.eq (a b c : Word) : Length.Statement (.eq a b c) := ⟨_, rfl, rfl, show 3 ≤ 3 by decide⟩
theorem Length.gt (a b c : Word) : Length.Statement (.gt a b c) := ⟨_, rfl, rfl, show 3 ≤ 3 by decide⟩
theorem Length.jmp (a : Word) : Length.Statement (.jmp a) := ⟨_, rfl, rfl, show 1 ≤ 3 by decide⟩
theorem Length.jt (a b : Word) : Length.Statement (.jt a b) := ⟨_, rfl, rfl, show 2 ≤ 3 by decide⟩
theorem Length.jf (a b : Word) : Length.Statement (.jf a b) := ⟨_, rfl, rfl, show 2 ≤ 3 by decide⟩
theorem Length.add (a b c : Word) : Length.Statement (.add a b c) := ⟨_, rfl, rfl, show 3 ≤ 3 by decide⟩
theorem Length.mult (a b c : Word) : Length.Statement (.mult a b c) := ⟨_, rfl, rfl, show 3 ≤ 3 by decide⟩
theorem Length.mod (a b c : Word) : Length.Statement (.mod a b c) := ⟨_, rfl, rfl, show 3 ≤ 3 by decide⟩
theorem Length.and (a b c : Word) : Length.Statement (.and a b c) := ⟨_, rfl, rfl, show 3 ≤ 3 by decide⟩
theorem Length.or (a b c : Word) : Length.Statement (.or a b c) := ⟨_, rfl, rfl, show 3 ≤ 3 by decide⟩
theorem Length.not (a b : Word) : Length.Statement (.not a b) := ⟨_, rfl, rfl, show 2 ≤ 3 by decide⟩
theorem Length.rmem (a b : Word) : Length.Statement (.rmem a b) := ⟨_, rfl, rfl, show 2 ≤ 3 by decide⟩
theorem Length.wmem (a b : Word) : Length.Statement (.wmem a b) := ⟨_, rfl, rfl, show 2 ≤ 3 by decide⟩
theorem Length.call (a : Word) : Length.Statement (.call a) := ⟨_, rfl, rfl, show 1 ≤ 3 by decide⟩
theorem Length.ret : Length.Statement .ret := ⟨_, rfl, rfl, show 0 ≤ 3 by decide⟩
theorem Length.out (a : Word) : Length.Statement (.out a) := ⟨_, rfl, rfl, show 1 ≤ 3 by decide⟩
theorem Length.inp (a : Word) : Length.Statement (.inp a) := ⟨_, rfl, rfl, show 1 ≤ 3 by decide⟩
theorem Length.noop : Length.Statement .noop := ⟨_, rfl, rfl, show 0 ≤ 3 by decide⟩

end Sys2Proof.Laws
end

