-- ==== Sys2Proof/Laws/Decode.lean ====
section
/-! SUPPORT. The opcode map, and what decoding at `pc` finds. -/

namespace Sys2Proof

/-- An opcode word has a format iff its value is below 22 (R82, R92). -/
theorem format_eq_none_iff (op : Word) : format op = none ↔ 22 ≤ op.toNat := by
  unfold format
  split <;> simp_all
  omega

theorem roundTrip (i : Instr) : Laws.RoundTrip.Statement i := by
  cases i with
  | halt => exact Laws.RoundTrip.halt
  | set a b => exact Laws.RoundTrip.set a b
  | push a => exact Laws.RoundTrip.push a
  | pop a => exact Laws.RoundTrip.pop a
  | eq a b c => exact Laws.RoundTrip.eq a b c
  | gt a b c => exact Laws.RoundTrip.gt a b c
  | jmp a => exact Laws.RoundTrip.jmp a
  | jt a b => exact Laws.RoundTrip.jt a b
  | jf a b => exact Laws.RoundTrip.jf a b
  | add a b c => exact Laws.RoundTrip.add a b c
  | mult a b c => exact Laws.RoundTrip.mult a b c
  | mod a b c => exact Laws.RoundTrip.mod a b c
  | and a b c => exact Laws.RoundTrip.and a b c
  | or a b c => exact Laws.RoundTrip.or a b c
  | not a b => exact Laws.RoundTrip.not a b
  | rmem a b => exact Laws.RoundTrip.rmem a b
  | wmem a b => exact Laws.RoundTrip.wmem a b
  | call a => exact Laws.RoundTrip.call a
  | ret => exact Laws.RoundTrip.ret
  | out a => exact Laws.RoundTrip.out a
  | inp a => exact Laws.RoundTrip.inp a
  | noop => exact Laws.RoundTrip.noop

theorem length_encode_le (i : Instr) : (encode i).length ≤ 4 := by
  cases i <;> simp [encode]

namespace Machine

/-- Words that stand in memory from `a` on are what a fetch from `a` begins with. -/
theorem fetchWords_prefix {m : Memory} {ws : List Word} {a n : Nat} (hn : ws.length ≤ n)
    (h : ∀ k (hk : k < ws.length), a + k < 32768 ∧ readWord m (a + k) = ws[k]) :
    ∃ rest, fetchWords m a n = ws ++ rest := by
  induction ws generalizing a n with
  | nil => exact ⟨_, rfl⟩
  | cons w ws ih =>
    cases n with
    | zero => simp at hn
    | succ n =>
      obtain ⟨ha, hw⟩ := h 0 (by simp)
      obtain ⟨rest, e⟩ := @ih (a + 1) n (by simpa using hn) fun k hk => by
        have := h (k + 1) (by simpa using hk)
        rw [show a + 1 + k = a + (k + 1) by omega]
        simpa using this
      refine ⟨rest, ?_⟩
      rw [fetchWords, if_pos (by simpa using ha), e]
      simpa using hw

/-- Where an instruction's words stand at `pc`, decoding gives that instruction (R88). -/
theorem fetch_of_words {s : State} {i : Instr}
    (h : ∀ k (hk : k < (encode i).length),
      s.pc.toNat + k < 32768 ∧ readWord s.mem (s.pc.toNat + k) = (encode i)[k]) : fetch s = .ok i := by
  obtain ⟨rest, e⟩ := fetchWords_prefix (length_encode_le i) h
  unfold fetch
  rw [e, roundTrip i rest]

/-- Decoding fails in the two ways of R89 and R90 only. -/
theorem fetch_error {s : State} {c : Cause} (h : fetch s = .error c) : c = .unknownOpcode ∨ c = .outOfBounds := by
  unfold fetch at h
  split at h <;> cases h <;> simp

end Machine

end Sys2Proof
end

