-- ==== Sys2Proof/Laws/Memory.lean ====
section
/-! SUPPORT. The laws of memory: a read after a write, everywhere else unchanged, and the canonical form that every memory
operation keeps. -/

namespace Sys2Proof.Machine

/-! ### Bytes -/

@[simp] theorem readByte_nil (a : Nat) : readByte [] a = 0 := rfl

theorem readByte_cons (k a : Nat) (b : Byte) (m : Memory) :
    readByte ((k, b) :: m) a = if a = k then b else readByte m a := rfl

theorem wfFrom_cons {lo k : Nat} {b : Byte} {m : Memory} :
    wfFrom lo ((k, b) :: m) = true ↔ lo ≤ k ∧ k < 65536 ∧ b ≠ 0 ∧ wfFrom (k + 1) m = true := by
  simp [wfFrom, and_assoc]

theorem wfFrom_mono {m : Memory} {lo lo' : Nat} (h : lo' ≤ lo) (hm : wfFrom lo m = true) : wfFrom lo' m = true := by
  cases m with
  | nil => rfl
  | cons c m =>
    rw [wfFrom_cons] at *
    exact ⟨h.trans hm.1, hm.2⟩

/-- Below its lowest address a canonical memory reads 0. -/
theorem readByte_below {m : Memory} {lo a : Nat} (hm : wfFrom lo m = true) (h : a < lo) : readByte m a = 0 := by
  induction m generalizing lo with
  | nil => rfl
  | cons c m ih =>
    rw [wfFrom_cons] at hm
    rw [readByte_cons, if_neg (by omega)]
    exact ih hm.2.2.2 (by omega)

theorem wfFrom_consByte {m : Memory} {lo a : Nat} {v : Byte} (hm : wfFrom (a + 1) m = true) (h : lo ≤ a)
    (ha : a < 65536) : wfFrom lo (consByte a v m) = true := by
  unfold consByte
  split
  · exact wfFrom_mono (by omega) hm
  · exact wfFrom_cons.2 ⟨h, ha, by assumption, hm⟩

theorem readByte_consByte {m : Memory} {a : Nat} (v : Byte) (b : Nat) (hm : wfFrom (a + 1) m = true) :
    readByte (consByte a v m) b = if b = a then v else readByte m b := by
  unfold consByte
  split
  · next hv =>
    split
    · next e => rw [e, hv]; exact readByte_below hm (by omega)
    · rfl
  · exact readByte_cons ..

/-- Writing a byte keeps the canonical form. -/
theorem wfFrom_writeByte {m : Memory} {lo a : Nat} (v : Byte) (hm : wfFrom lo m = true) (h : lo ≤ a)
    (ha : a < 65536) : wfFrom lo (writeByte a v m) = true := by
  induction m generalizing lo with
  | nil => exact wfFrom_consByte rfl h ha
  | cons c m ih =>
    obtain ⟨k, b⟩ := c
    have hm' := wfFrom_cons.1 hm
    unfold writeByte
    split
    · exact wfFrom_consByte (wfFrom_cons.2 ⟨by omega, hm'.2⟩) h ha
    · split
      · next e => exact wfFrom_consByte (e ▸ hm'.2.2.2) h ha
      · exact wfFrom_cons.2 ⟨hm'.1, hm'.2.1, hm'.2.2.1, ih hm'.2.2.2 (by omega)⟩

/-- What any byte reads after a byte write. -/
theorem readByte_writeByte {m : Memory} {lo : Nat} (a : Nat) (v : Byte) (b : Nat) (hm : wfFrom lo m = true) :
    readByte (writeByte a v m) b = if b = a then v else readByte m b := by
  induction m generalizing lo with
  | nil => exact readByte_consByte v b rfl
  | cons c m ih =>
    obtain ⟨k, d⟩ := c
    have hm' := wfFrom_cons.1 hm
    unfold writeByte
    split
    · exact readByte_consByte v b (wfFrom_cons.2 ⟨by omega, hm'.2⟩)
    · split
      · next e =>
        subst e
        rw [readByte_consByte v b hm'.2.2.2, readByte_cons]
        split <;> rfl
      · rw [readByte_cons, readByte_cons, ih hm'.2.2.2]
        split
        · rw [if_neg (by omega)]
        · rfl

/-- Two canonical memories that read alike everywhere are the same list. -/
theorem eq_of_readByte_eq {m n : Memory} {lo : Nat} (hm : wfFrom lo m = true) (hn : wfFrom lo n = true)
    (h : ∀ a, readByte m a = readByte n a) : m = n := by
  induction m generalizing lo n with
  | nil =>
    cases n with
    | nil => rfl
    | cons c n =>
      have hc := wfFrom_cons.1 hn
      have := h c.1
      rw [readByte_cons, if_pos rfl] at this
      exact absurd this.symm hc.2.2.1
  | cons c m ih =>
    obtain ⟨k, b⟩ := c
    have hm' := wfFrom_cons.1 hm
    cases n with
    | nil =>
      have := h k
      rw [readByte_cons, if_pos rfl] at this
      exact absurd this hm'.2.2.1
    | cons d n =>
      obtain ⟨l, e⟩ := d
      have hn' := wfFrom_cons.1 hn
      have hk : k = l := by
        rcases Nat.lt_trichotomy k l with hlt | heq | hgt
        · have := h k
          rw [readByte_cons, if_pos rfl, readByte_below (wfFrom_cons.2 ⟨Nat.le_refl l, hn'.2⟩) hlt] at this
          exact absurd this hm'.2.2.1
        · exact heq
        · have := h l
          rw [readByte_cons l, if_pos rfl, readByte_below (wfFrom_cons.2 ⟨Nat.le_refl k, hm'.2⟩) hgt] at this
          exact absurd this.symm hn'.2.2.1
      subst hk
      have hb : b = e := by simpa [readByte_cons] using h k
      subst hb
      refine congrArg _ (ih hm'.2.2.2 hn'.2.2.2 fun a => ?_)
      by_cases ha : a = k
      · rw [ha, readByte_below hm'.2.2.2 (by omega), readByte_below hn'.2.2.2 (by omega)]
      · simpa [readByte_cons, ha] using h a

/-! ### Words -/

/-- A Word is its high byte before its low byte. -/
theorem word_of_bytes (v : Word) : (v.extractLsb' 8 8 ++ v.extractLsb' 0 8 : BitVec (8 + 8)) = v := by
  ext i hi
  simp only [BitVec.getElem_append, BitVec.getElem_extractLsb']
  by_cases h : i < 8
  · simp [h, BitVec.getLsbD_eq_getElem hi]
  · simp [h, show 8 + (i - 8) = i by omega, BitVec.getLsbD_eq_getElem hi]

theorem wf_writeWord {m : Memory} {a : Nat} (v : Word) (hm : m.wf = true) (h : a < 32768) :
    (writeWord a v m).wf = true :=
  wfFrom_writeByte _ (wfFrom_writeByte _ hm (by omega) (by omega)) (by omega) (by omega)

/-- What any byte reads after a Word write. -/
theorem readByte_writeWord {m : Memory} {a : Nat} (v : Word) (b : Nat) (hm : m.wf = true) (h : a < 32768) :
    readByte (writeWord a v m) b =
      if b = 2 * a + 1 then v.extractLsb' 8 8 else if b = 2 * a then v.extractLsb' 0 8 else readByte m b := by
  unfold writeWord
  rw [readByte_writeByte _ _ _ (wfFrom_writeByte _ hm (Nat.zero_le _) (by omega)), readByte_writeByte _ _ _ hm]

/-- A read after a write of the same Word. -/
theorem readWord_writeWord_same {m : Memory} {a : Nat} (v : Word) (hm : m.wf = true) (h : a < 32768) :
    readWord (writeWord a v m) a = v := by
  unfold readWord
  rw [readByte_writeWord _ _ hm h, readByte_writeWord _ _ hm h, if_pos rfl, if_neg (by omega), if_pos rfl]
  exact word_of_bytes v

/-- A write leaves every other Word alone. -/
theorem readWord_writeWord_other {m : Memory} {a b : Nat} (v : Word) (hm : m.wf = true) (h : a < 32768) (hb : b ≠ a) :
    readWord (writeWord a v m) b = readWord m b := by
  unfold readWord
  rw [readByte_writeWord _ _ hm h, readByte_writeWord _ _ hm h, if_neg (by omega), if_neg (by omega), if_neg (by omega),
    if_neg (by omega)]

/-! ### The operations of a step, and the loader's -/

theorem memRead_of_lt {addr : Word} (s : State) (h : addr.toNat < 32768) :
    memRead addr s = .ok (readWord s.mem addr.toNat) := if_pos h

theorem memRead_of_ge {addr : Word} (s : State) (h : 32768 ≤ addr.toNat) : memRead addr s = .error .outOfBounds :=
  if_neg (by omega)

/-- Everything a Word write can do. -/
theorem memWrite_cases (addr v : Word) (s : State) :
    (addr.toNat < 32768 ∧ memWrite addr v s = .ok { s with mem := writeWord addr.toNat v s.mem }) ∨
      (32768 ≤ addr.toNat ∧ memWrite addr v s = .error .outOfBounds) := by
  unfold memWrite
  split
  · exact .inl ⟨by assumption, rfl⟩
  · exact .inr ⟨by omega, rfl⟩

/-- A Word write keeps the canonical form. -/
theorem wf_memWrite {addr v : Word} {s t : State} (h : memWrite addr v s = .ok t) (hm : s.mem.wf = true) :
    t.mem.wf = true := by
  obtain ⟨ha, e⟩ | ⟨-, e⟩ := memWrite_cases addr v s
  · rw [e] at h
    injection h with h
    exact h ▸ wf_writeWord v hm ha
  · rw [e] at h
    cases h

theorem wf_storeWords {m : Memory} (ws : List Word) (a : Nat) (hm : m.wf = true) : (storeWords a ws m).wf = true := by
  induction ws generalizing a m with
  | nil => exact hm
  | cons w ws ih =>
    unfold storeWords
    refine ih _ ?_
    split
    · exact wf_writeWord w hm (by assumption)
    · exact hm

theorem wfFrom_bytesAt (bs : List Byte) (k : Nat) (h : k + bs.length ≤ 65536) : wfFrom k (bytesAt k bs) = true := by
  induction bs generalizing k with
  | nil => rfl
  | cons b bs ih =>
    have h' : k + 1 + bs.length ≤ 65536 := by rw [List.length_cons] at h; omega
    exact wfFrom_consByte (ih (k + 1) h') (Nat.le_refl k) (by omega)

/-- What any byte reads after the loader's copy. -/
theorem readByte_bytesAt (bs : List Byte) (k a : Nat) (h : k + bs.length ≤ 65536) :
    readByte (bytesAt k bs) (k + a) = bs.getD a 0 := by
  induction bs generalizing k a with
  | nil => simp [bytesAt]
  | cons b bs ih =>
    have h' : k + 1 + bs.length ≤ 65536 := by rw [List.length_cons] at h; omega
    rw [bytesAt, readByte_consByte _ _ (wfFrom_bytesAt bs (k + 1) h')]
    cases a with
    | zero => simp
    | succ a =>
      rw [if_neg (by omega), show k + (a + 1) = k + 1 + a by omega, ih _ _ h']
      simp

/-- Everything the loader can answer. -/
theorem load_cases (image : List Byte) :
    (65536 < image.length ∧ load image = .error .imageTooLarge) ∨
      (image.length ≤ 65536 ∧ image.length % 2 = 1 ∧ load image = .error .imageOddLength) ∨
      (image.length ≤ 65536 ∧ image.length % 2 = 0 ∧ load image = .ok (bytesAt 0 image)) := by
  unfold load
  split
  · exact .inl ⟨by assumption, rfl⟩
  · split
    · exact .inr (.inl ⟨by omega, by assumption, rfl⟩)
    · exact .inr (.inr ⟨by omega, by omega, rfl⟩)

/-- A loaded memory is canonical. -/
theorem wf_load {image : List Byte} {m : Memory} (h : load image = .ok m) : m.wf = true := by
  obtain ⟨-, e⟩ | ⟨-, -, e⟩ | ⟨hl, -, e⟩ := load_cases image <;> rw [e] at h <;> cases h
  exact wfFrom_bytesAt image 0 (by omega)

/-- The memory of `State.reset` is canonical. -/
theorem wf_reset : State.reset.mem.wf = true := rfl

end Sys2Proof.Machine
end

