-- ==== Sys2Proof/Laws/Ops.lean ====
section
/-! SUPPORT. One lemma per shared operation that says everything it can do: operand resolution, the stack, the shapes several
instructions share, and how an instruction ends. -/

namespace Sys2Proof.Machine

/-! ### Operands (R83 to R85) -/

theorem classify_lit {v : Word} (h : v.toNat ≤ 32767) : classify v = .lit v := if_pos h

theorem classify_reg {v : Word} {i : Fin 8} (h : v.toNat = 32768 + i.val) : classify v = .reg i := by
  have hi := i.isLt
  unfold classify
  rw [if_neg (by omega), dif_pos (by omega)]
  exact congrArg Kind.reg (Fin.ext (by simp [h]))

theorem classify_inv {v : Word} (h : 32775 < v.toNat) : classify v = .inv := by
  unfold classify
  rw [if_neg (by omega), dif_neg (by omega)]

/-- Everything a value operand can be. -/
theorem readOp_cases (w : Word) (s : State) :
    (w.toNat ≤ 32767 ∧ readOp w s = .ok w) ∨
      (∃ i : Fin 8, w.toNat = 32768 + i.val ∧ readOp w s = .ok s.regs[i]) ∨
      (32775 < w.toNat ∧ readOp w s = .error .invalidOperand) := by
  unfold readOp
  by_cases h : w.toNat ≤ 32767
  · rw [classify_lit h]
    exact .inl ⟨h, rfl⟩
  · by_cases h' : w.toNat ≤ 32775
    · have e : w.toNat = 32768 + (⟨w.toNat - 32768, by omega⟩ : Fin 8).val := by simp only []; omega
      rw [classify_reg e]
      exact .inr (.inl ⟨_, e, rfl⟩)
    · rw [classify_inv (by omega)]
      exact .inr (.inr ⟨by omega, rfl⟩)

/-- Everything a destination operand can be. -/
theorem destOp_cases (w : Word) :
    (∃ i : Fin 8, w.toNat = 32768 + i.val ∧ destOp w = .ok i) ∨
      ((w.toNat < 32768 ∨ 32775 < w.toNat) ∧ destOp w = .error .invalidDestination) := by
  unfold destOp
  by_cases h : w.toNat ≤ 32767
  · rw [classify_lit h]
    exact .inr ⟨.inl (by omega), rfl⟩
  · by_cases h' : w.toNat ≤ 32775
    · have e : w.toNat = 32768 + (⟨w.toNat - 32768, by omega⟩ : Fin 8).val := by simp only []; omega
      rw [classify_reg e]
      exact .inl ⟨_, e, rfl⟩
    · rw [classify_inv (by omega)]
      exact .inr ⟨.inr (by omega), rfl⟩

theorem readOp_error {w : Word} {s : State} {c : Cause} (h : readOp w s = .error c) :
    c = .invalidOperand ∧ 32775 < w.toNat := by
  obtain ⟨-, e⟩ | ⟨i, -, e⟩ | ⟨hw, e⟩ := readOp_cases w s <;> rw [e] at h <;> cases h
  exact ⟨rfl, hw⟩

theorem destOp_error {w : Word} {c : Cause} (h : destOp w = .error c) :
    c = .invalidDestination ∧ (w.toNat < 32768 ∨ 32775 < w.toNat) := by
  obtain ⟨i, -, e⟩ | ⟨hw, e⟩ := destOp_cases w <;> rw [e] at h <;> cases h
  exact ⟨rfl, hw⟩

theorem destOp_ok {w : Word} {d : Fin 8} (h : destOp w = .ok d) : w.toNat = 32768 + d.val := by
  obtain ⟨i, hw, e⟩ | ⟨-, e⟩ := destOp_cases w <;> rw [e] at h <;> cases h
  exact hw

/-! ### The stack (R27, R28) -/

/-- A stack is full iff its depth is the limit, as R28 says it. -/
theorem stackFull_iff (limit : Option ℕ+) (n : Nat) : stackFull limit n = true ↔ ∃ l, limit = some l ∧ n = (l : Nat) := by
  cases n with
  | zero =>
    constructor
    · intro h
      cases h
    · intro ⟨l, _, h⟩
      have := l.pos
      omega
  | succ n =>
    cases limit with
    | none => simp [stackFull]
    | some l =>
      simp only [stackFull, beq_iff_eq, Option.some.injEq]
      exact ⟨fun h => ⟨l, rfl, h.symm⟩, fun ⟨k, e, h⟩ => e ▸ h.symm⟩

/-- Everything a push can do. -/
theorem pushWord_cases (v : Word) (s : State) :
    ((∀ l : ℕ+, s.stackLimit = some l → s.stack.length ≠ l) ∧ pushWord v s = .ok { s with stack := v :: s.stack }) ∨
      ((∃ l : ℕ+, s.stackLimit = some l ∧ s.stack.length = l) ∧ pushWord v s = .error .stackOverflow) := by
  unfold pushWord
  split
  · next h => exact .inr ⟨(stackFull_iff _ _).1 h, rfl⟩
  · next h => exact .inl ⟨fun l e hl => h ((stackFull_iff _ _).2 ⟨l, e, hl⟩), rfl⟩

theorem pushWord_error {v : Word} {s : State} {c : Cause} (h : pushWord v s = .error c) : c = .stackOverflow := by
  obtain ⟨-, e⟩ | ⟨-, e⟩ := pushWord_cases v s <;> rw [e] at h <;> cases h
  rfl

theorem pushWord_ok {v : Word} {s t : State} (h : pushWord v s = .ok t) :
    (∀ l : ℕ+, s.stackLimit = some l → s.stack.length ≠ l) ∧ t = { s with stack := v :: s.stack } := by
  obtain ⟨hl, e⟩ | ⟨-, e⟩ := pushWord_cases v s <;> rw [e] at h <;> cases h
  exact ⟨hl, rfl⟩

/-! ### The shared shapes (R86, R91) -/

/-- `unaryOp` completes in exactly one way. -/
theorem unaryOp_ok {f : Word → Except Cause Word} {a b : Word} {s t : State} :
    unaryOp f a b s = .ok t ↔
      ∃ d vb r, destOp a = .ok d ∧ readOp b s = .ok vb ∧ f vb = .ok r ∧ t = advance 2 (setReg d r s) := by
  unfold unaryOp
  cases destOp a with
  | error c => simp [bind, Except.bind]
  | ok d =>
    cases readOp b s with
    | error c => simp [bind, Except.bind]
    | ok vb => cases hf : f vb <;> simp [bind, Except.bind, pure, Except.pure, hf, @eq_comm _ t]

/-- `unaryOp` raises what its first failing resolution raises, else what its function raises. -/
theorem unaryOp_error {f : Word → Except Cause Word} {a b : Word} {s : State} {c : Cause}
    (h : unaryOp f a b s = .error c) :
    destOp a = .error c ∨ readOp b s = .error c ∨ ∃ vb, readOp b s = .ok vb ∧ f vb = .error c := by
  unfold unaryOp at h
  cases hd : destOp a with
  | error e => rw [hd] at h; cases h; exact .inl rfl
  | ok d =>
    cases hb : readOp b s with
    | error e => rw [hd, hb] at h; cases h; exact .inr (.inl rfl)
    | ok vb =>
      rw [hd, hb] at h
      cases hf : f vb with
      | error e =>
        simp only [bind, Except.bind, hf] at h
        cases h
        exact .inr (.inr ⟨vb, rfl, hf⟩)
      | ok r => simp [bind, Except.bind, pure, Except.pure, hf] at h

/-- `binaryOp` completes in exactly one way. -/
theorem binaryOp_ok {f : Word → Word → Except Cause Word} {a b c : Word} {s t : State} :
    binaryOp f a b c s = .ok t ↔
      ∃ d vb vc r, destOp a = .ok d ∧ readOp b s = .ok vb ∧ readOp c s = .ok vc ∧ f vb vc = .ok r ∧
        t = advance 3 (setReg d r s) := by
  unfold binaryOp
  cases destOp a with
  | error e => simp [bind, Except.bind]
  | ok d =>
    cases readOp b s with
    | error e => simp [bind, Except.bind]
    | ok vb =>
      cases readOp c s with
      | error e => simp [bind, Except.bind]
      | ok vc => cases hf : f vb vc <;> simp [bind, Except.bind, pure, Except.pure, hf, @eq_comm _ t]

/-- `binaryOp` raises what its first failing resolution raises, else what its function raises. -/
theorem binaryOp_error {f : Word → Word → Except Cause Word} {a b c : Word} {s : State} {e : Cause}
    (h : binaryOp f a b c s = .error e) :
    destOp a = .error e ∨ readOp b s = .error e ∨ readOp c s = .error e ∨
      ∃ vb vc, readOp b s = .ok vb ∧ readOp c s = .ok vc ∧ f vb vc = .error e := by
  unfold binaryOp at h
  cases hd : destOp a with
  | error x => rw [hd] at h; cases h; exact .inl rfl
  | ok d =>
    cases hb : readOp b s with
    | error x => rw [hd, hb] at h; cases h; exact .inr (.inl rfl)
    | ok vb =>
      cases hc : readOp c s with
      | error x => rw [hd, hb, hc] at h; cases h; exact .inr (.inr (.inl rfl))
      | ok vc =>
        rw [hd, hb, hc] at h
        cases hf : f vb vc with
        | error x =>
          simp only [bind, Except.bind, hf] at h
          cases h
          exact .inr (.inr (.inr ⟨vb, vc, rfl, rfl, hf⟩))
        | ok r => simp [bind, Except.bind, pure, Except.pure, hf] at h

/-- `branchOp` completes by the jump or by falling through. -/
theorem branchOp_ok {selects : Word → Bool} {a b : Word} {s t : State} :
    branchOp selects a b s = .ok t ↔
      ∃ c, readOp a s = .ok c ∧
        ((selects c = true ∧ ∃ v, readOp b s = .ok v ∧ t = setPc v s) ∨ (selects c = false ∧ t = advance 2 s)) := by
  unfold branchOp
  cases readOp a s with
  | error e => simp [bind, Except.bind]
  | ok c =>
    cases hc : selects c with
    | false => simp [bind, Except.bind, pure, Except.pure, hc, @eq_comm _ t]
    | true => cases readOp b s <;> simp [bind, Except.bind, pure, Except.pure, hc, @eq_comm _ t]

/-- `branchOp` raises what the condition raises, or, only where the jump is taken, what the target raises. -/
theorem branchOp_error {selects : Word → Bool} {a b : Word} {s : State} {e : Cause}
    (h : branchOp selects a b s = .error e) :
    readOp a s = .error e ∨ ∃ c, readOp a s = .ok c ∧ selects c = true ∧ readOp b s = .error e := by
  unfold branchOp at h
  cases ha : readOp a s with
  | error x => rw [ha] at h; cases h; exact .inl rfl
  | ok c =>
    rw [ha] at h
    cases hc : selects c with
    | false => simp [bind, Except.bind, pure, Except.pure, hc] at h
    | true =>
      cases hb : readOp b s with
      | error x =>
        simp only [bind, Except.bind, hc, hb, if_true] at h
        cases h
        exact .inr ⟨c, rfl, hc, rfl⟩
      | ok v => simp [bind, Except.bind, pure, Except.pure, hc, hb] at h

/-! ### How an instruction ends -/

@[simp] theorem conclude_ok (s t : State) : conclude s (.ok t) = .next t := rfl

@[simp] theorem conclude_error (s : State) (c : Cause) : conclude s (.error c) = .next (raise c s) := rfl

/-- Every instruction ends in a next state: its own, or the fault it raises. -/
theorem conclude_cases (s : State) (r : Except Cause State) :
    (∃ t, r = .ok t ∧ conclude s r = .next t) ∨ (∃ c, r = .error c ∧ conclude s r = .next (raise c s)) := by
  cases r with
  | ok t => exact .inl ⟨t, rfl, rfl⟩
  | error c => exact .inr ⟨c, rfl, rfl⟩

theorem conclude_next {s t : State} {r : Except Cause State} (h : conclude s r = .next t) :
    r = .ok t ∨ ∃ c, r = .error c ∧ t = raise c s := by
  obtain ⟨u, e, e'⟩ | ⟨c, e, e'⟩ := conclude_cases s r <;> rw [e'] at h <;> cases h
  · exact .inl e
  · exact .inr ⟨c, e, rfl⟩

end Sys2Proof.Machine
end

