-- ==== Sys2Proof/Laws/State.lean ====
section
/-! SUPPORT. For each update of the state, what each field holds after it: no later proof unfolds a record update. -/

namespace Sys2Proof.Machine

/-! ### setReg -/

@[simp] theorem setReg_regs (i : Fin 8) (v : Word) (s : State) : (setReg i v s).regs = s.regs.set i v := rfl
@[simp] theorem setReg_pc (i : Fin 8) (v : Word) (s : State) : (setReg i v s).pc = s.pc := rfl
@[simp] theorem setReg_stack (i : Fin 8) (v : Word) (s : State) : (setReg i v s).stack = s.stack := rfl
@[simp] theorem setReg_mem (i : Fin 8) (v : Word) (s : State) : (setReg i v s).mem = s.mem := rfl
@[simp] theorem setReg_status (i : Fin 8) (v : Word) (s : State) : (setReg i v s).status = s.status := rfl
@[simp] theorem setReg_faultCause (i : Fin 8) (v : Word) (s : State) : (setReg i v s).faultCause = s.faultCause := rfl
@[simp] theorem setReg_faultPc (i : Fin 8) (v : Word) (s : State) : (setReg i v s).faultPc = s.faultPc := rfl
@[simp] theorem setReg_faultOp (i : Fin 8) (v : Word) (s : State) : (setReg i v s).faultOp = s.faultOp := rfl
@[simp] theorem setReg_inq (i : Fin 8) (v : Word) (s : State) : (setReg i v s).inq = s.inq := rfl
@[simp] theorem setReg_inEof (i : Fin 8) (v : Word) (s : State) : (setReg i v s).inEof = s.inEof := rfl
@[simp] theorem setReg_outq (i : Fin 8) (v : Word) (s : State) : (setReg i v s).outq = s.outq := rfl
@[simp] theorem setReg_loadError (i : Fin 8) (v : Word) (s : State) : (setReg i v s).loadError = s.loadError := rfl
@[simp] theorem setReg_stackLimit (i : Fin 8) (v : Word) (s : State) : (setReg i v s).stackLimit = s.stackLimit := rfl
@[simp] theorem setReg_notBit15 (i : Fin 8) (v : Word) (s : State) : (setReg i v s).notBit15 = s.notBit15 := rfl

/-! ### setPc -/

@[simp] theorem setPc_regs (t : Word) (s : State) : (setPc t s).regs = s.regs := rfl
@[simp] theorem setPc_pc (t : Word) (s : State) : (setPc t s).pc = t := rfl
@[simp] theorem setPc_stack (t : Word) (s : State) : (setPc t s).stack = s.stack := rfl
@[simp] theorem setPc_mem (t : Word) (s : State) : (setPc t s).mem = s.mem := rfl
@[simp] theorem setPc_status (t : Word) (s : State) : (setPc t s).status = s.status := rfl
@[simp] theorem setPc_faultCause (t : Word) (s : State) : (setPc t s).faultCause = s.faultCause := rfl
@[simp] theorem setPc_faultPc (t : Word) (s : State) : (setPc t s).faultPc = s.faultPc := rfl
@[simp] theorem setPc_faultOp (t : Word) (s : State) : (setPc t s).faultOp = s.faultOp := rfl
@[simp] theorem setPc_inq (t : Word) (s : State) : (setPc t s).inq = s.inq := rfl
@[simp] theorem setPc_inEof (t : Word) (s : State) : (setPc t s).inEof = s.inEof := rfl
@[simp] theorem setPc_outq (t : Word) (s : State) : (setPc t s).outq = s.outq := rfl
@[simp] theorem setPc_loadError (t : Word) (s : State) : (setPc t s).loadError = s.loadError := rfl
@[simp] theorem setPc_stackLimit (t : Word) (s : State) : (setPc t s).stackLimit = s.stackLimit := rfl
@[simp] theorem setPc_notBit15 (t : Word) (s : State) : (setPc t s).notBit15 = s.notBit15 := rfl

/-! ### advance -/

@[simp] theorem advance_regs (n : Nat) (s : State) : (advance n s).regs = s.regs := rfl
@[simp] theorem advance_pc (n : Nat) (s : State) : (advance n s).pc = nextPc n s := rfl
@[simp] theorem advance_stack (n : Nat) (s : State) : (advance n s).stack = s.stack := rfl
@[simp] theorem advance_mem (n : Nat) (s : State) : (advance n s).mem = s.mem := rfl
@[simp] theorem advance_status (n : Nat) (s : State) : (advance n s).status = s.status := rfl
@[simp] theorem advance_faultCause (n : Nat) (s : State) : (advance n s).faultCause = s.faultCause := rfl
@[simp] theorem advance_faultPc (n : Nat) (s : State) : (advance n s).faultPc = s.faultPc := rfl
@[simp] theorem advance_faultOp (n : Nat) (s : State) : (advance n s).faultOp = s.faultOp := rfl
@[simp] theorem advance_inq (n : Nat) (s : State) : (advance n s).inq = s.inq := rfl
@[simp] theorem advance_inEof (n : Nat) (s : State) : (advance n s).inEof = s.inEof := rfl
@[simp] theorem advance_outq (n : Nat) (s : State) : (advance n s).outq = s.outq := rfl
@[simp] theorem advance_loadError (n : Nat) (s : State) : (advance n s).loadError = s.loadError := rfl
@[simp] theorem advance_stackLimit (n : Nat) (s : State) : (advance n s).stackLimit = s.stackLimit := rfl
@[simp] theorem advance_notBit15 (n : Nat) (s : State) : (advance n s).notBit15 = s.notBit15 := rfl

/-! ### emit -/

@[simp] theorem emit_regs (v : Word) (s : State) : (emit v s).regs = s.regs := rfl
@[simp] theorem emit_pc (v : Word) (s : State) : (emit v s).pc = s.pc := rfl
@[simp] theorem emit_stack (v : Word) (s : State) : (emit v s).stack = s.stack := rfl
@[simp] theorem emit_mem (v : Word) (s : State) : (emit v s).mem = s.mem := rfl
@[simp] theorem emit_status (v : Word) (s : State) : (emit v s).status = s.status := rfl
@[simp] theorem emit_faultCause (v : Word) (s : State) : (emit v s).faultCause = s.faultCause := rfl
@[simp] theorem emit_faultPc (v : Word) (s : State) : (emit v s).faultPc = s.faultPc := rfl
@[simp] theorem emit_faultOp (v : Word) (s : State) : (emit v s).faultOp = s.faultOp := rfl
@[simp] theorem emit_inq (v : Word) (s : State) : (emit v s).inq = s.inq := rfl
@[simp] theorem emit_inEof (v : Word) (s : State) : (emit v s).inEof = s.inEof := rfl
@[simp] theorem emit_outq (v : Word) (s : State) : (emit v s).outq = s.outq ++ [v] := rfl
@[simp] theorem emit_loadError (v : Word) (s : State) : (emit v s).loadError = s.loadError := rfl
@[simp] theorem emit_stackLimit (v : Word) (s : State) : (emit v s).stackLimit = s.stackLimit := rfl
@[simp] theorem emit_notBit15 (v : Word) (s : State) : (emit v s).notBit15 = s.notBit15 := rfl

/-! ### haltCore -/

@[simp] theorem haltCore_regs (s : State) : (haltCore s).regs = s.regs := rfl
@[simp] theorem haltCore_pc (s : State) : (haltCore s).pc = s.pc := rfl
@[simp] theorem haltCore_stack (s : State) : (haltCore s).stack = s.stack := rfl
@[simp] theorem haltCore_mem (s : State) : (haltCore s).mem = s.mem := rfl
@[simp] theorem haltCore_status (s : State) : (haltCore s).status = .halted := rfl
@[simp] theorem haltCore_faultCause (s : State) : (haltCore s).faultCause = s.faultCause := rfl
@[simp] theorem haltCore_faultPc (s : State) : (haltCore s).faultPc = s.faultPc := rfl
@[simp] theorem haltCore_faultOp (s : State) : (haltCore s).faultOp = s.faultOp := rfl
@[simp] theorem haltCore_inq (s : State) : (haltCore s).inq = s.inq := rfl
@[simp] theorem haltCore_inEof (s : State) : (haltCore s).inEof = s.inEof := rfl
@[simp] theorem haltCore_outq (s : State) : (haltCore s).outq = s.outq := rfl
@[simp] theorem haltCore_loadError (s : State) : (haltCore s).loadError = s.loadError := rfl
@[simp] theorem haltCore_stackLimit (s : State) : (haltCore s).stackLimit = s.stackLimit := rfl
@[simp] theorem haltCore_notBit15 (s : State) : (haltCore s).notBit15 = s.notBit15 := rfl

/-! ### raise -/

@[simp] theorem raise_regs (c : Cause) (s : State) : (raise c s).regs = s.regs := rfl
@[simp] theorem raise_pc (c : Cause) (s : State) : (raise c s).pc = s.pc := rfl
@[simp] theorem raise_stack (c : Cause) (s : State) : (raise c s).stack = s.stack := rfl
@[simp] theorem raise_mem (c : Cause) (s : State) : (raise c s).mem = s.mem := rfl
@[simp] theorem raise_status (c : Cause) (s : State) : (raise c s).status = .faulted := rfl
@[simp] theorem raise_faultCause (c : Cause) (s : State) : (raise c s).faultCause = c := rfl
@[simp] theorem raise_faultPc (c : Cause) (s : State) : (raise c s).faultPc = s.pc := rfl
@[simp] theorem raise_faultOp (c : Cause) (s : State) : (raise c s).faultOp = readWord s.mem s.pc.toNat := rfl
@[simp] theorem raise_inq (c : Cause) (s : State) : (raise c s).inq = s.inq := rfl
@[simp] theorem raise_inEof (c : Cause) (s : State) : (raise c s).inEof = s.inEof := rfl
@[simp] theorem raise_outq (c : Cause) (s : State) : (raise c s).outq = s.outq := rfl
@[simp] theorem raise_loadError (c : Cause) (s : State) : (raise c s).loadError = s.loadError := rfl
@[simp] theorem raise_stackLimit (c : Cause) (s : State) : (raise c s).stackLimit = s.stackLimit := rfl
@[simp] theorem raise_notBit15 (c : Cause) (s : State) : (raise c s).notBit15 = s.notBit15 := rfl

/-! ### closeInput -/

@[simp] theorem closeInput_regs (s : State) : (closeInput s).regs = s.regs := rfl
@[simp] theorem closeInput_pc (s : State) : (closeInput s).pc = s.pc := rfl
@[simp] theorem closeInput_stack (s : State) : (closeInput s).stack = s.stack := rfl
@[simp] theorem closeInput_mem (s : State) : (closeInput s).mem = s.mem := rfl
@[simp] theorem closeInput_status (s : State) : (closeInput s).status = s.status := rfl
@[simp] theorem closeInput_faultCause (s : State) : (closeInput s).faultCause = s.faultCause := rfl
@[simp] theorem closeInput_faultPc (s : State) : (closeInput s).faultPc = s.faultPc := rfl
@[simp] theorem closeInput_faultOp (s : State) : (closeInput s).faultOp = s.faultOp := rfl
@[simp] theorem closeInput_inq (s : State) : (closeInput s).inq = s.inq := rfl
@[simp] theorem closeInput_inEof (s : State) : (closeInput s).inEof = true := rfl
@[simp] theorem closeInput_outq (s : State) : (closeInput s).outq = s.outq := rfl
@[simp] theorem closeInput_loadError (s : State) : (closeInput s).loadError = s.loadError := rfl
@[simp] theorem closeInput_stackLimit (s : State) : (closeInput s).stackLimit = s.stackLimit := rfl
@[simp] theorem closeInput_notBit15 (s : State) : (closeInput s).notBit15 = s.notBit15 := rfl

/-! ### placeAtPc -/

@[simp] theorem placeAtPc_regs (n w : Nat) (s : State) : (placeAtPc n w s).regs = s.regs := rfl
@[simp] theorem placeAtPc_pc (n w : Nat) (s : State) : (placeAtPc n w s).pc = s.pc := rfl
@[simp] theorem placeAtPc_stack (n w : Nat) (s : State) : (placeAtPc n w s).stack = s.stack := rfl
@[simp] theorem placeAtPc_mem (n w : Nat) (s : State) : (placeAtPc n w s).mem = storeWords s.pc.toNat (wordsOfBits n w) s.mem := rfl
@[simp] theorem placeAtPc_status (n w : Nat) (s : State) : (placeAtPc n w s).status = s.status := rfl
@[simp] theorem placeAtPc_faultCause (n w : Nat) (s : State) : (placeAtPc n w s).faultCause = s.faultCause := rfl
@[simp] theorem placeAtPc_faultPc (n w : Nat) (s : State) : (placeAtPc n w s).faultPc = s.faultPc := rfl
@[simp] theorem placeAtPc_faultOp (n w : Nat) (s : State) : (placeAtPc n w s).faultOp = s.faultOp := rfl
@[simp] theorem placeAtPc_inq (n w : Nat) (s : State) : (placeAtPc n w s).inq = s.inq := rfl
@[simp] theorem placeAtPc_inEof (n w : Nat) (s : State) : (placeAtPc n w s).inEof = s.inEof := rfl
@[simp] theorem placeAtPc_outq (n w : Nat) (s : State) : (placeAtPc n w s).outq = s.outq := rfl
@[simp] theorem placeAtPc_loadError (n w : Nat) (s : State) : (placeAtPc n w s).loadError = s.loadError := rfl
@[simp] theorem placeAtPc_stackLimit (n w : Nat) (s : State) : (placeAtPc n w s).stackLimit = s.stackLimit := rfl
@[simp] theorem placeAtPc_notBit15 (n w : Nat) (s : State) : (placeAtPc n w s).notBit15 = s.notBit15 := rfl

/-! ### What a register reads after a register write -/

@[simp] theorem reg_setReg_same (i : Fin 8) (v : Word) (s : State) : reg i (setReg i v s) = v := by
  simp [reg]

theorem reg_setReg_other {i j : Fin 8} (h : j ≠ i) (v : Word) (s : State) : reg j (setReg i v s) = reg j s := by
  have h' : i.val ≠ j.val := fun e => h (Fin.ext e.symm)
  simp [reg, setReg, Vector.getElem_set_ne, h']

end Sys2Proof.Machine
end

