-- ==== Sys2Proof/Laws/Step.lean ====
section
/-! SUPPORT. What an instruction and a step can do, said once: every whole-machine fact is a case analysis of `exec_next` and
`step_next`, not an unfolding of the machine. -/

namespace Sys2Proof.Machine

/-- How an instruction completes (the effect lines of its rule), with its operands resolved. -/
inductive Completes : Instr → State → State → Prop where
  | halt (s) : Completes .halt s (haltCore (advance 0 s))
  | noop (s) : Completes .noop s (advance 0 s)
  | set {a b s d v} (hd : destOp a = .ok d) (hb : readOp b s = .ok v) :
      Completes (.set a b) s (advance 2 (setReg d v s))
  | push {a s v} (ha : readOp a s = .ok v) (room : ∀ l : ℕ+, s.stackLimit = some l → s.stack.length ≠ l) :
      Completes (.push a) s (advance 1 { s with stack := v :: s.stack })
  | pop {a s d v vs} (hd : destOp a = .ok d) (hs : s.stack = v :: vs) :
      Completes (.pop a) s (advance 1 (setReg d v { s with stack := vs }))
  | eq {a b c s d vb vc} (hd : destOp a = .ok d) (hb : readOp b s = .ok vb) (hc : readOp c s = .ok vc) :
      Completes (.eq a b c) s (advance 3 (setReg d (truthWord (vb == vc)) s))
  | gt {a b c s d vb vc} (hd : destOp a = .ok d) (hb : readOp b s = .ok vb) (hc : readOp c s = .ok vc) :
      Completes (.gt a b c) s (advance 3 (setReg d (truthWord (decide (vb.toNat > vc.toNat))) s))
  | jmp {a s t} (ha : readOp a s = .ok t) : Completes (.jmp a) s (setPc t s)
  | jtTaken {a b s c t} (ha : readOp a s = .ok c) (hc : nonZero c = true) (hb : readOp b s = .ok t) :
      Completes (.jt a b) s (setPc t s)
  | jtNot {a b s c} (ha : readOp a s = .ok c) (hc : nonZero c = false) : Completes (.jt a b) s (advance 2 s)
  | jfTaken {a b s c t} (ha : readOp a s = .ok c) (hc : nonZero c = false) (hb : readOp b s = .ok t) :
      Completes (.jf a b) s (setPc t s)
  | jfNot {a b s c} (ha : readOp a s = .ok c) (hc : nonZero c = true) : Completes (.jf a b) s (advance 2 s)
  | add {a b c s d vb vc} (hd : destOp a = .ok d) (hb : readOp b s = .ok vb) (hc : readOp c s = .ok vc) :
      Completes (.add a b c) s (advance 3 (setReg d (aluAdd vb vc) s))
  | mult {a b c s d vb vc} (hd : destOp a = .ok d) (hb : readOp b s = .ok vb) (hc : readOp c s = .ok vc) :
      Completes (.mult a b c) s (advance 3 (setReg d (aluMult vb vc) s))
  | mod {a b c s d vb vc r} (hd : destOp a = .ok d) (hb : readOp b s = .ok vb) (hc : readOp c s = .ok vc)
      (hr : aluMod vb vc = .ok r) : Completes (.mod a b c) s (advance 3 (setReg d r s))
  | and {a b c s d vb vc} (hd : destOp a = .ok d) (hb : readOp b s = .ok vb) (hc : readOp c s = .ok vc) :
      Completes (.and a b c) s (advance 3 (setReg d (vb &&& vc) s))
  | or {a b c s d vb vc} (hd : destOp a = .ok d) (hb : readOp b s = .ok vb) (hc : readOp c s = .ok vc) :
      Completes (.or a b c) s (advance 3 (setReg d (vb ||| vc) s))
  | not {a b s d vb} (hd : destOp a = .ok d) (hb : readOp b s = .ok vb) :
      Completes (.not a b) s (advance 2 (setReg d (aluNot s.notBit15 vb) s))
  | rmem {a b s d addr} (hd : destOp a = .ok d) (hb : readOp b s = .ok addr) (h : addr.toNat < 32768) :
      Completes (.rmem a b) s (advance 2 (setReg d (readWord s.mem addr.toNat) s))
  | wmem {a b s addr v} (ha : readOp a s = .ok addr) (hb : readOp b s = .ok v) (h : addr.toNat < 32768) :
      Completes (.wmem a b) s (advance 2 { s with mem := writeWord addr.toNat v s.mem })
  | call {a s t} (ha : readOp a s = .ok t) (room : ∀ l : ℕ+, s.stackLimit = some l → s.stack.length ≠ l) :
      Completes (.call a) s (setPc t { s with stack := nextPc 1 s :: s.stack })
  | retEmpty {s} (hs : s.stack = []) : Completes .ret s (haltCore (advance 0 s))
  | ret {s v vs} (hs : s.stack = v :: vs) : Completes .ret s (setPc v { s with stack := vs })
  | out {a s v} (ha : readOp a s = .ok v) : Completes (.out a) s (advance 1 (emit v s))
  | inTake {a s d ch rest} (hd : destOp a = .ok d) (hq : s.inq = ch :: rest) :
      Completes (.inp a) s (advance 1 (setReg d (ch.zeroExtend 16) { s with inq := rest }))
  | inWait {a s d} (hd : destOp a = .ok d) (hq : s.inq = []) (he : s.inEof = false) : Completes (.inp a) s s

/-- Every instruction answers a next state. -/
theorem exec_answers (i : Instr) (s : State) : ∃ t, exec i s = .next t := by
  have key : ∃ r, exec i s = conclude s r := by
    cases i with
    | halt => exact ⟨.ok (haltCore (advance 0 s)), rfl⟩
    | noop => exact ⟨.ok (advance 0 s), rfl⟩
    | ret => exact ⟨.ok _, rfl⟩
    | _ => exact ⟨_, rfl⟩
  obtain ⟨r, e⟩ := key
  obtain ⟨t, -, e'⟩ | ⟨c, -, e'⟩ := conclude_cases s r
  · exact ⟨t, e.trans e'⟩
  · exact ⟨_, e.trans e'⟩

/-- The causes an instruction can raise while it executes (60_exceptions.md R212, without the decoder's). -/
def raisable : Instr → List Cause
  | .halt | .noop | .ret => []
  | .set _ _ | .eq _ _ _ | .gt _ _ _ | .add _ _ _ | .mult _ _ _ | .and _ _ _ | .or _ _ _ | .not _ _ =>
    [.invalidDestination, .invalidOperand]
  | .mod _ _ _ => [.invalidDestination, .invalidOperand, .divideByZero]
  | .push _ | .call _ => [.invalidOperand, .stackOverflow]
  | .pop _ => [.invalidDestination, .stackUnderflow]
  | .jmp _ | .jt _ _ | .jf _ _ | .out _ => [.invalidOperand]
  | .rmem _ _ => [.invalidDestination, .invalidOperand, .outOfBounds]
  | .wmem _ _ => [.invalidOperand, .outOfBounds]
  | .inp _ => [.invalidDestination, .inputEnd]

theorem conclude_unaryOp {f : Word → Except Cause Word} {a b : Word} {s t : State}
    (h : conclude s (unaryOp f a b s) = .next t) :
    (∃ d vb r, destOp a = .ok d ∧ readOp b s = .ok vb ∧ f vb = .ok r ∧ t = advance 2 (setReg d r s)) ∨
      ∃ c, t = raise c s ∧
        (c = .invalidDestination ∨ c = .invalidOperand ∨ ∃ vb, readOp b s = .ok vb ∧ f vb = .error c) := by
  obtain e | ⟨c, e, ht⟩ := conclude_next h
  · exact .inl (unaryOp_ok.1 e)
  · obtain h | h | h := unaryOp_error e
    · exact .inr ⟨c, ht, .inl (destOp_error h).1⟩
    · exact .inr ⟨c, ht, .inr (.inl (readOp_error h).1)⟩
    · exact .inr ⟨c, ht, .inr (.inr h)⟩

theorem conclude_binaryOp {f : Word → Word → Except Cause Word} {a b c : Word} {s t : State}
    (h : conclude s (binaryOp f a b c s) = .next t) :
    (∃ d vb vc r, destOp a = .ok d ∧ readOp b s = .ok vb ∧ readOp c s = .ok vc ∧ f vb vc = .ok r ∧
        t = advance 3 (setReg d r s)) ∨
      ∃ e, t = raise e s ∧ (e = .invalidDestination ∨ e = .invalidOperand ∨ ∃ vb vc, f vb vc = .error e) := by
  obtain e | ⟨x, e, ht⟩ := conclude_next h
  · exact .inl (binaryOp_ok.1 e)
  · obtain h | h | h | ⟨vb, vc, -, -, h⟩ := binaryOp_error e
    · exact .inr ⟨x, ht, .inl (destOp_error h).1⟩
    · exact .inr ⟨x, ht, .inr (.inl (readOp_error h).1)⟩
    · exact .inr ⟨x, ht, .inr (.inl (readOp_error h).1)⟩
    · exact .inr ⟨x, ht, .inr (.inr ⟨vb, vc, h⟩)⟩

/-- Everything `exec` can answer: the instruction's completion, or a fault of R212 taken in the state it began in. -/
theorem exec_next {i : Instr} {s t : State} (h : exec i s = .next t) :
    Completes i s t ∨ ∃ c ∈ raisable i, t = raise c s := by
  cases i with
  | halt => cases h; exact .inl (.halt s)
  | noop => cases h; exact .inl (.noop s)
  | set a b =>
    obtain ⟨d, vb, r, hd, hb, hr, rfl⟩ | ⟨c, rfl, rfl | rfl | ⟨_, _, hf⟩⟩ := conclude_unaryOp h
    · cases hr; exact .inl (.set hd hb)
    · exact .inr ⟨_, by simp [raisable], rfl⟩
    · exact .inr ⟨_, by simp [raisable], rfl⟩
    · cases hf
  | not a b =>
    obtain ⟨d, vb, r, hd, hb, hr, rfl⟩ | ⟨c, rfl, rfl | rfl | ⟨_, _, hf⟩⟩ := conclude_unaryOp h
    · cases hr; exact .inl (.not hd hb)
    · exact .inr ⟨_, by simp [raisable], rfl⟩
    · exact .inr ⟨_, by simp [raisable], rfl⟩
    · cases hf
  | rmem a b =>
    obtain ⟨d, addr, r, hd, hb, hr, rfl⟩ | ⟨c, rfl, rfl | rfl | ⟨addr, hb, hf⟩⟩ := conclude_unaryOp h
    · by_cases ha : addr.toNat < 32768
      · rw [memRead_of_lt s ha] at hr; cases hr; exact .inl (.rmem hd hb ha)
      · rw [memRead_of_ge s (by omega)] at hr; cases hr
    · exact .inr ⟨_, by simp [raisable], rfl⟩
    · exact .inr ⟨_, by simp [raisable], rfl⟩
    · by_cases ha : addr.toNat < 32768
      · rw [memRead_of_lt s ha] at hf; cases hf
      · rw [memRead_of_ge s (by omega)] at hf; cases hf; exact .inr ⟨_, by simp [raisable], rfl⟩
  | eq a b c =>
    obtain ⟨d, vb, vc, r, hd, hb, hc, hr, rfl⟩ | ⟨c, rfl, rfl | rfl | ⟨_, _, hf⟩⟩ := conclude_binaryOp h
    · cases hr; exact .inl (.eq hd hb hc)
    · exact .inr ⟨_, by simp [raisable], rfl⟩
    · exact .inr ⟨_, by simp [raisable], rfl⟩
    · cases hf
  | gt a b c =>
    obtain ⟨d, vb, vc, r, hd, hb, hc, hr, rfl⟩ | ⟨c, rfl, rfl | rfl | ⟨_, _, hf⟩⟩ := conclude_binaryOp h
    · cases hr; exact .inl (.gt hd hb hc)
    · exact .inr ⟨_, by simp [raisable], rfl⟩
    · exact .inr ⟨_, by simp [raisable], rfl⟩
    · cases hf
  | add a b c =>
    obtain ⟨d, vb, vc, r, hd, hb, hc, hr, rfl⟩ | ⟨c, rfl, rfl | rfl | ⟨_, _, hf⟩⟩ := conclude_binaryOp h
    · cases hr; exact .inl (.add hd hb hc)
    · exact .inr ⟨_, by simp [raisable], rfl⟩
    · exact .inr ⟨_, by simp [raisable], rfl⟩
    · cases hf
  | mult a b c =>
    obtain ⟨d, vb, vc, r, hd, hb, hc, hr, rfl⟩ | ⟨c, rfl, rfl | rfl | ⟨_, _, hf⟩⟩ := conclude_binaryOp h
    · cases hr; exact .inl (.mult hd hb hc)
    · exact .inr ⟨_, by simp [raisable], rfl⟩
    · exact .inr ⟨_, by simp [raisable], rfl⟩
    · cases hf
  | mod a b c =>
    obtain ⟨d, vb, vc, r, hd, hb, hc, hr, rfl⟩ | ⟨c, rfl, rfl | rfl | ⟨_, _, hf⟩⟩ := conclude_binaryOp h
    · exact .inl (.mod hd hb hc hr)
    · exact .inr ⟨_, by simp [raisable], rfl⟩
    · exact .inr ⟨_, by simp [raisable], rfl⟩
    · unfold aluMod at hf
      split at hf <;> cases hf
      exact .inr ⟨_, by simp [raisable], rfl⟩
  | and a b c =>
    obtain ⟨d, vb, vc, r, hd, hb, hc, hr, rfl⟩ | ⟨c, rfl, rfl | rfl | ⟨_, _, hf⟩⟩ := conclude_binaryOp h
    · cases hr; exact .inl (.and hd hb hc)
    · exact .inr ⟨_, by simp [raisable], rfl⟩
    · exact .inr ⟨_, by simp [raisable], rfl⟩
    · cases hf
  | or a b c =>
    obtain ⟨d, vb, vc, r, hd, hb, hc, hr, rfl⟩ | ⟨c, rfl, rfl | rfl | ⟨_, _, hf⟩⟩ := conclude_binaryOp h
    · cases hr; exact .inl (.or hd hb hc)
    · exact .inr ⟨_, by simp [raisable], rfl⟩
    · exact .inr ⟨_, by simp [raisable], rfl⟩
    · cases hf
  | jt a b =>
    obtain e | ⟨c, e, rfl⟩ := conclude_next h
    · obtain ⟨c, hc, ⟨ht, v, hv, rfl⟩ | ⟨hf, rfl⟩⟩ := branchOp_ok.1 e
      · exact .inl (.jtTaken hc ht hv)
      · exact .inl (.jtNot hc hf)
    · obtain h | ⟨_, _, _, h⟩ := branchOp_error e <;> exact .inr ⟨c, by simp [raisable, (readOp_error h).1], rfl⟩
  | jf a b =>
    obtain e | ⟨c, e, rfl⟩ := conclude_next h
    · obtain ⟨c, hc, ⟨ht, v, hv, rfl⟩ | ⟨hf, rfl⟩⟩ := branchOp_ok.1 e
      · exact .inl (.jfTaken hc (by simpa using ht) hv)
      · exact .inl (.jfNot hc (by simpa using hf))
    · obtain h | ⟨_, _, _, h⟩ := branchOp_error e <;> exact .inr ⟨c, by simp [raisable, (readOp_error h).1], rfl⟩
  | jmp a =>
    cases ha : readOp a s with
    | error c =>
      simp only [exec, execJmp, ha, bind, Except.bind, conclude_error] at h
      cases h
      exact .inr ⟨c, by simp [raisable, (readOp_error ha).1], rfl⟩
    | ok v =>
      simp only [exec, execJmp, ha, bind, Except.bind, pure, Except.pure, conclude_ok] at h
      cases h
      exact .inl (.jmp ha)
  | out a =>
    cases ha : readOp a s with
    | error c =>
      simp only [exec, execOut, ha, bind, Except.bind, conclude_error] at h
      cases h
      exact .inr ⟨c, by simp [raisable, (readOp_error ha).1], rfl⟩
    | ok v =>
      simp only [exec, execOut, ha, bind, Except.bind, pure, Except.pure, conclude_ok] at h
      cases h
      exact .inl (.out ha)
  | push a =>
    cases ha : readOp a s with
    | error c =>
      simp only [exec, execPush, ha, bind, Except.bind, conclude_error] at h
      cases h
      exact .inr ⟨c, by simp [raisable, (readOp_error ha).1], rfl⟩
    | ok v =>
      obtain ⟨room, e⟩ | ⟨-, e⟩ := pushWord_cases v s
      · simp only [exec, execPush, ha, e, bind, Except.bind, pure, Except.pure, conclude_ok] at h
        cases h
        exact .inl (.push ha room)
      · simp only [exec, execPush, ha, e, bind, Except.bind, conclude_error] at h
        cases h
        exact .inr ⟨_, by simp [raisable], rfl⟩
  | call a =>
    cases ha : readOp a s with
    | error c =>
      simp only [exec, execCall, ha, bind, Except.bind, conclude_error] at h
      cases h
      exact .inr ⟨c, by simp [raisable, (readOp_error ha).1], rfl⟩
    | ok v =>
      obtain ⟨room, e⟩ | ⟨-, e⟩ := pushWord_cases (nextPc 1 s) s
      · simp only [exec, execCall, ha, e, bind, Except.bind, pure, Except.pure, conclude_ok] at h
        cases h
        exact .inl (.call ha room)
      · simp only [exec, execCall, ha, e, bind, Except.bind, conclude_error] at h
        cases h
        exact .inr ⟨_, by simp [raisable], rfl⟩
  | wmem a b =>
    cases ha : readOp a s with
    | error c =>
      simp only [exec, execWmem, ha, bind, Except.bind, conclude_error] at h
      cases h
      exact .inr ⟨c, by simp [raisable, (readOp_error ha).1], rfl⟩
    | ok addr =>
      cases hb : readOp b s with
      | error c =>
        simp only [exec, execWmem, ha, hb, bind, Except.bind, conclude_error] at h
        cases h
        exact .inr ⟨c, by simp [raisable, (readOp_error hb).1], rfl⟩
      | ok v =>
        obtain ⟨hlt, e⟩ | ⟨-, e⟩ := memWrite_cases addr v s
        · simp only [exec, execWmem, ha, hb, e, bind, Except.bind, pure, Except.pure, conclude_ok] at h
          cases h
          exact .inl (.wmem ha hb hlt)
        · simp only [exec, execWmem, ha, hb, e, bind, Except.bind, conclude_error] at h
          cases h
          exact .inr ⟨_, by simp [raisable], rfl⟩
  | pop a =>
    cases hd : destOp a with
    | error c =>
      simp only [exec, execPop, hd, bind, Except.bind, conclude_error] at h
      cases h
      exact .inr ⟨c, by simp [raisable, (destOp_error hd).1], rfl⟩
    | ok d =>
      cases hs : s.stack with
      | nil =>
        simp only [exec, execPop, popWord, hd, hs, bind, Except.bind, conclude_error] at h
        cases h
        exact .inr ⟨_, by simp [raisable], rfl⟩
      | cons v vs =>
        simp only [exec, execPop, popWord, hd, hs, bind, Except.bind, pure, Except.pure, conclude_ok] at h
        cases h
        exact .inl (.pop hd hs)
  | ret =>
    cases hs : s.stack with
    | nil =>
      simp only [exec, execRet, popWord, hs, conclude_ok] at h
      cases h
      exact .inl (.retEmpty hs)
    | cons v vs =>
      simp only [exec, execRet, popWord, hs, conclude_ok] at h
      cases h
      exact .inl (.ret hs)
  | inp a =>
    cases hd : destOp a with
    | error c =>
      simp only [exec, execIn, hd, bind, Except.bind, conclude_error] at h
      cases h
      exact .inr ⟨c, by simp [raisable, (destOp_error hd).1], rfl⟩
    | ok d =>
      cases hq : s.inq with
      | cons ch rest =>
        simp only [exec, execIn, hd, hq, bind, Except.bind, pure, Except.pure, conclude_ok] at h
        cases h
        exact .inl (.inTake hd hq)
      | nil =>
        cases he : s.inEof with
        | true =>
          simp only [exec, execIn, hd, hq, he, bind, Except.bind, if_true, conclude_error] at h
          cases h
          exact .inr ⟨_, by simp [raisable], rfl⟩
        | false =>
          simp only [exec, execIn, hd, hq, he, bind, Except.bind, pure, Except.pure] at h
          cases h
          exact .inl (.inWait hd hq he)

/-- Everything `step` can answer with a next state. -/
theorem step_next {s t : State} (h : step s = .next t) :
    s.loadError = .none ∧
      ((s.status ≠ .running ∧ t = s) ∨
        (s.status = .running ∧ 32768 ≤ s.pc.toNat ∧ t = haltCore s) ∨
        (s.status = .running ∧ s.pc.toNat < 32768 ∧ ∃ i, fetch s = .ok i ∧ exec i s = .next t) ∨
        (s.status = .running ∧ s.pc.toNat < 32768 ∧ ∃ c, fetch s = .error c ∧ t = raise c s)) := by
  unfold step at h
  split at h
  · cases h
  · cases h
  · next hl =>
    refine ⟨hl, ?_⟩
    split at h
    · next hs => cases h; exact .inl ⟨by simp [hs], rfl⟩
    · next hs => cases h; exact .inl ⟨by simp [hs], rfl⟩
    · next hs =>
      split at h
      · next he => cases h; exact .inr (.inl ⟨hs, by simpa [atEndOfMemory] using he, rfl⟩)
      · next he =>
        have hpc : s.pc.toNat < 32768 := by simpa [atEndOfMemory] using he
        split at h
        · next i hf => exact .inr (.inr (.inl ⟨hs, hpc, i, hf, h⟩))
        · next c hf => cases h; exact .inr (.inr (.inr ⟨hs, hpc, c, hf, rfl⟩))

/-- A Running block, not held in reset, executes the instruction decoded at `pc`. -/
theorem step_of_fetch {s : State} {i : Instr} (hl : s.loadError = .none) (hs : s.status = .running)
    (hpc : s.pc.toNat < 32768) (hf : fetch s = .ok i) : step s = exec i s := by
  have he : atEndOfMemory s = false := by simpa [atEndOfMemory] using hpc
  simp [step, hl, hs, he, hf]

end Sys2Proof.Machine
end

