-- ==== Sys2Proof/Tests/Slice0.lean ====
section
/-! SUPPORT. Tests, on values from the spec's own vectors (95_test_vectors.md, named by their ids) and the examples of its rules,
and, for every statement with hypotheses, a witness that meets them. A test runs one step. -/

namespace Sys2Proof.Tests

open Sys2Proof.Machine Sys2Proof.Claims Sys2Proof.Safety

/-- A block after reset with these words from address 0 on, an unbounded stack and NOT_BIT15 = keep. -/
def block (words : List Word) : State :=
  { State.reset with mem := storeWords 0 words [], stackLimit := none, notBit15 := .keep }

/-- The same with a register set. -/
def blockWith (words : List Word) (i : Fin 8) (v : Word) : State := setReg i v (block words)

/-- The state after one step. -/
def after (s : State) : State :=
  match step s with
  | .next t => t
  | .fault _ | .refused _ => s

/-- The fault record after one step: status Faulted, the cause, the address, the opcode word, and `pc`. -/
def record (s : State) : Status × BitVec 4 × Word × Word × Word :=
  let t := after s
  (t.status, t.faultCause.code, t.faultPc, t.faultOp, t.pc)

/-! ### Well-formedness: each check refuses an ill-formed term -/

/-- Check 1 refuses a literal destination (V4, V85). -/
theorem test_wellFormed_refuses_literal_destination : (Instr.add 5 1 2).wellFormed = false := by decide

/-- Check 1 refuses an invalid destination word. -/
theorem test_wellFormed_refuses_invalid_destination : (Instr.pop 32776).wellFormed = false := by decide

/-- Check 2 refuses an invalid value operand (V3), a jump target among them (V45). -/
theorem test_wellFormed_refuses_invalid_operand :
    (Instr.set 32768 32776).wellFormed = false ∧ (Instr.jt 1 32776).wellFormed = false := by decide

theorem test_wellFormed_accepts : (Instr.add 32775 32767 32768).wellFormed = true ∧ Instr.halt.wellFormed = true := by
  decide

/-- The notation of R95. -/
theorem test_text : (Instr.add 32768 32769 4).text = some "add reg0 reg1 4" := by decide

/-! ### Decoding: the words of each rule's encoding line, with the operands of its example -/

theorem test_decode_halt : decodeTableWord 16 0 = some .halt := by decide
theorem test_decode_set : decodeWords [1, 32768, 5] = .ok (.set 32768 5, []) := rfl
theorem test_decode_push : decodeWords [2, 7] = .ok (.push 7, []) := rfl
theorem test_decode_pop : decodeWords [3, 32769] = .ok (.pop 32769, []) := rfl
theorem test_decode_eq : decodeWords [4, 32768, 5, 6] = .ok (.eq 32768 5 6, []) := rfl
theorem test_decode_gt : decodeWords [5, 32768, 3, 2] = .ok (.gt 32768 3 2, []) := rfl
theorem test_decode_jmp : decodeWords [6, 32768] = .ok (.jmp 32768, []) := rfl
theorem test_decode_jt : decodeWords [7, 32768, 100] = .ok (.jt 32768 100, []) := rfl
theorem test_decode_jf : decodeWords [8, 32768, 100] = .ok (.jf 32768 100, []) := rfl
/-- The one image the source itself decodes (30_encoding.md R92). -/
theorem test_decode_add : decodeWords [9, 32768, 32769, 4] = .ok (.add 32768 32769 4, []) := rfl
theorem test_decode_mult : decodeWords [10, 32768, 3, 4] = .ok (.mult 32768 3 4, []) := rfl
theorem test_decode_mod : decodeWords [11, 32768, 10, 3] = .ok (.mod 32768 10 3, []) := rfl
theorem test_decode_and : decodeWords [12, 32768, 21845, 13107] = .ok (.and 32768 21845 13107, []) := rfl
theorem test_decode_or : decodeWords [13, 32768, 21845, 13107] = .ok (.or 32768 21845 13107, []) := rfl
theorem test_decode_not : decodeWords [14, 32768, 0] = .ok (.not 32768 0, []) := rfl
theorem test_decode_rmem : decodeWords [15, 32770, 100] = .ok (.rmem 32770 100, []) := rfl
theorem test_decode_wmem : decodeWords [16, 100, 42] = .ok (.wmem 100 42, []) := rfl
theorem test_decode_call : decodeWords [17, 9] = .ok (.call 9, []) := rfl
theorem test_decode_ret : decodeWords [18] = .ok (.ret, []) := rfl
theorem test_decode_out : decodeWords [19, 65] = .ok (.out 65, []) := rfl
theorem test_decode_in : decodeWords [20, 32768] = .ok (.inp 32768, []) := rfl
theorem test_decode_noop : decodeWords [21, 0] = .ok (.noop, [0]) := rfl
/-- The bytes of an image are little-endian (R55): `set reg0 5`. -/
theorem test_decode_bytes : decodeBytes [1, 0, 0, 128, 5, 0, 21] = .ok (.set 32768 5, [21]) := rfl
/-- The whole opcode word counts (V1, V2). -/
theorem test_decode_unknown :
    decodeWords [22] = .error (.unknownOpcode 22) ∧ decodeWords [32768] = .error (.unknownOpcode 32768) := ⟨rfl, rfl⟩
theorem test_decode_truncated : decodeWords [9, 32768, 1] = .error (.operandMissing 3) := rfl
/-- Bits above `nbits` are zero: one word of `add`, the others 0. -/
theorem test_decodeTableWord_add : decodeTableWord 16 (9 + 65536 * 7) = some (.add 0 0 0) := by decide

/-! ### Operands (S0a) -/

theorem test_classify : [0, 32767, 32768, 32775, 32776, 65535].map classify =
    [.lit 0, .lit 32767, .reg 0, .reg 7, .inv, .inv] := by decide

/-! ### Steps -/

/-- V8, V10. -/
theorem test_halt : (after (block [])).status = .halted ∧ (after (block [])).pc = 1 := by decide
/-- V11. -/
theorem test_noop : (after (block [21, 0])).status = .running ∧ (after (block [21, 0])).pc = 1 := by decide
/-- V20: the register's Word is copied whole. -/
theorem test_set : reg 0 (after (blockWith [1, 32768, 32769] 1 40000)) = 40000 := by decide
/-- V5: the destination is checked first. -/
theorem test_set_faults : record (block [1, 5, 32776]) = (.faulted, 3, 0, 1, 0) := by decide
/-- V22. -/
theorem test_push : (after (block [2, 32773])).stack = [0] ∧ (after (block [2, 32773])).pc = 2 := by decide
/-- V25, its second step. -/
theorem test_push_overflow :
    record { block [2, 1, 2, 2] with pc := 2, stack := [1], stackLimit := some 1 } = (.faulted, 8, 2, 2, 2) := by decide
/-- R132's example. -/
theorem test_pop : reg 1 (after { block [3, 32769] with stack := [5] }) = 5 ∧
    (after { block [3, 32769] with stack := [5] }).stack = [] := by decide
/-- S0f, V24: an empty stack, and a literal destination before it. -/
theorem test_pop_faults : record (block [3, 32768]) = (.faulted, 5, 0, 3, 0) ∧
    record (block [3, 5]) = (.faulted, 3, 0, 3, 0) := by decide
/-- V30, V32: 16 bits are compared. -/
theorem test_eq : reg 0 (after (block [4, 32768, 5, 5])) = 1 ∧
    reg 0 (after (blockWith [4, 32768, 32769, 7232] 1 40000)) = 0 := by decide
/-- V35, V36: equal gives 0, and the comparison is unsigned. -/
theorem test_gt : reg 0 (after (block [5, 32768, 2, 2])) = 0 ∧
    reg 0 (after (blockWith [5, 32768, 32769, 32767] 1 40000)) = 1 := by decide
/-- V38: an invalid third operand. -/
theorem test_gt_faults : record (block [5, 32768, 1, 32776]) = (.faulted, 2, 0, 5, 0) := by decide
/-- V51. -/
theorem test_jmp : (after (blockWith [6, 32771] 3 40000)).pc = 40000 ∧
    (after (after (blockWith [6, 32771] 3 40000))).status = .halted := by decide
/-- V43, V44: any non-zero Word jumps; a target not taken is not resolved. -/
theorem test_jt : (after (blockWith [7, 32768, 5] 0 40000)).pc = 5 ∧ (after (block [7, 0, 32776])).pc = 3 := by decide
/-- V45. -/
theorem test_jt_faults : record (block [7, 1, 32776]) = (.faulted, 2, 0, 7, 0) := by decide
/-- V46, V47. -/
theorem test_jf : (after (block [8, 32768, 5])).pc = 5 ∧ (after (blockWith [8, 32768, 5] 0 5)).pc = 3 := by decide
/-- V61, V65: the sum wraps at 32768, and a source may be the destination. -/
theorem test_add : reg 0 (after (block [9, 32768, 32767, 32767])) = 32766 ∧
    reg 0 (after (blockWith [9, 32768, 32768, 32768] 0 20000)) = 7232 := by decide
/-- V68, V66. -/
theorem test_mult : reg 0 (after (blockWith [10, 32768, 32769, 2] 1 40000)) = 14464 ∧
    reg 0 (after (block [10, 32768, 32767, 32767])) = 1 := by decide
/-- V72: no reduction modulo 32768. -/
theorem test_mod : reg 0 (after (blockWith [11, 32768, 32769, 7] 1 40000)) = 2 := by decide
/-- V74. -/
theorem test_mod_zero : record (block [11, 32768, 10, 0]) = (.faulted, 6, 0, 11, 0) := by decide
/-- V75, V76. -/
theorem test_and : reg 0 (after (block [12, 32768, 21845, 13107])) = 4369 ∧
    reg 0 (after (blockWith [12, 32768, 32769, 32767] 1 40000)) = 7232 := by decide
/-- V77, V78. -/
theorem test_or : reg 0 (after (block [13, 32768, 21845, 13107])) = 30583 ∧
    reg 0 (after (blockWith [13, 32768, 32769, 1] 1 40000)) = 40001 := by decide
/-- V81, V82. -/
theorem test_not : reg 0 (after (block [14, 32768, 21845])) = 10922 ∧
    reg 0 (after (blockWith [14, 32768, 32769] 1 40000)) = 58303 := by decide
/-- V83, V84: the other value of NOT_BIT15. -/
theorem test_not_clear : reg 0 (after { blockWith [14, 32768, 32769] 1 40000 with notBit15 := .clear }) = 25535 ∧
    reg 0 (after { blockWith [14, 32768, 32769] 1 65535 with notBit15 := .clear }) = 0 := by decide
/-- V91: it reads its own opcode word. -/
theorem test_rmem : reg 0 (after (block [15, 32768, 0])) = 15 := by decide
/-- V92. -/
theorem test_rmem_faults : record (blockWith [15, 32769, 32768] 0 40000) = (.faulted, 4, 0, 15, 0) := by decide
/-- V93, V97: a Word of 32768 or more is stored whole. -/
theorem test_wmem : readWord (after (block [16, 100, 42])).mem 100 = 42 ∧
    readWord (after (blockWith [16, 50, 32769] 1 40000)).mem 50 = 40000 := by decide
/-- V95: an invalid value is reported before an address out of bounds. -/
theorem test_wmem_faults : record (blockWith [16, 32768, 32776] 0 40000) = (.faulted, 2, 0, 16, 0) := by decide
/-- R154's example, and V53: a call that faults pushes nothing. -/
theorem test_call : (after { block [21, 21, 21, 17, 9] with pc := 3 }).stack = [5] ∧
    (after (block [17, 32776])).stack = [] := by decide
/-- V54. -/
theorem test_call_overflow :
    record { block [2, 1, 17, 0] with pc := 2, stack := [1], stackLimit := some 1 } = (.faulted, 8, 2, 17, 2) := by decide
/-- R155's example, and V49. -/
theorem test_ret : (after { block [18] with stack := [5] }).pc = 5 ∧ (after (block [18])).status = .halted ∧
    (after (block [18])).pc = 1 := by decide
/-- V100, V101. -/
theorem test_out : (after (block [19, 65])).outq = [65] ∧ (after (blockWith [19, 32768] 0 300)).outq = [300] := by decide
/-- V102. -/
theorem test_in : reg 0 (after { block [20, 32768] with inq := [120] }) = 120 ∧
    (after { block [20, 32768] with inq := [120] }).inq = [] := by decide
/-- V103, V104, V105: the wait, the end of input, and a destination checked before the wait. -/
theorem test_in_waits_or_faults : (after (block [20, 32768])).pc = 0 ∧ waitIn (block [20, 32768]) = true ∧
    record { block [20, 32768] with inEof := true } = (.faulted, 7, 0, 20, 0) ∧
    record (block [20, 5]) = (.faulted, 3, 0, 20, 0) := by decide
/-- V1. -/
theorem test_unknown_opcode : record (block [22]) = (.faulted, 1, 0, 22, 0) := by decide
/-- V6, V7: at 32767 a `jmp` faults on its operand fetch, and a `noop` leads to a normal end. -/
theorem test_end_of_memory :
    record { block [] with pc := 32767, mem := storeWords 32767 [6] [] } = (.faulted, 4, 32767, 6, 32767) ∧
    (after (after { block [] with pc := 32767, mem := storeWords 32767 [21] [] })).status = .halted := by decide

/-! ### Reset, ports, host -/

/-- The image's bytes are words, low byte first, and the rest is zero (R64). -/
theorem test_launch : (launch none .keep [9, 0, 0, 128] [] false).mem = [(0, 9), (3, 128)] := by decide
/-- An odd image does not load, and the block takes no step (R66, R226). -/
theorem test_launch_odd : (launch none .keep [9] [] false).loadError = .imageOddLength := rfl
/-- `out 65` pulses `out_valid` with 65, and the terminal shows A (S3, R35). -/
theorem test_pulse_and_terminal : pulses (block [19, 65]) = { inTake := false, outData := some 65 } ∧
    terminal (after (block [19, 65])) = [65] := by decide
theorem test_exit_codes : exitCode (block []) = none ∧ exitCode (after (block [])) = some 0 := by decide

/-- What `step` runs of a row's opcode word, with zeros for its operands, as the first instruction after reset. -/
def firstStep (op : Nat) : Option (Status × BitVec 4 × Word) :=
  match step (State.reset.withFetchWord 16 op) with
  | .next t => some (t.status, t.faultCause.code, t.pc)
  | .fault _ | .refused _ => none

/-- A zero operand word is the literal 0 (R83): a value of 0, and no destination. -/
theorem test_first_step : [2, 3, 6, 7, 8, 11, 14, 16, 17, 18, 19, 20, 21].map firstStep =
    [some (.running, 0, 2), some (.faulted, 3, 0), some (.running, 0, 0), some (.running, 0, 3), some (.running, 0, 0),
      some (.faulted, 3, 0), some (.faulted, 3, 0), some (.running, 0, 3), some (.running, 0, 0), some (.halted, 0, 1),
      some (.running, 0, 2), some (.faulted, 3, 0), some (.running, 0, 1)] := by decide

/-! ### Witnesses: for each statement with hypotheses, a state and operands that meet them, clause by clause, at the ends of
their ranges -/

/-- reg0 and reg7 are named by the first and the last register word (R83). -/
theorem witness_ClassifierSplitsOperandWordsByRange : (32767 : Word).toNat ≤ 32767 ∧
    (32768 : Word).toNat = 32768 + (0 : Fin 8).val ∧ (32775 : Word).toNat = 32768 + (7 : Fin 8).val ∧
    32776 ≤ (32776 : Word).toNat := by decide

theorem witness_ValueOperandIsLiteralOrRegisterContents : (0 : Word).toNat ≤ 32767 ∧
    (32775 : Word).toNat = 32768 + (7 : Fin 8).val ∧ 32776 ≤ (65535 : Word).toNat := by decide

theorem witness_DestinationOperandMustNameARegister : (32768 : Word).toNat = 32768 + (0 : Fin 8).val ∧
    ((32767 : Word).toNat ≤ 32767 ∨ 32776 ≤ (32767 : Word).toNat) ∧
    ((32776 : Word).toNat ≤ 32767 ∨ 32776 ≤ (32776 : Word).toNat) := by decide

theorem witness_DecodedWordsAreTheInstructionsEncoding : decodeWords [21, 5] = .ok (.noop, [5]) := rfl

/-- Opcode words at both sides of 22, with enough operand words and with too few. -/
theorem witness_OpcodeWordAloneTellsWhetherAndHowFar : 22 ≤ (22 : Word).toNat ∧ (21 : Word).toNat < 22 ∧
    arity 9 = some 3 ∧ 3 ≤ [1, 2, (3 : Word)].length ∧ [1, (2 : Word)].length < 3 := by decide

/-- A well-formed instruction that does fault, on its execution check. -/
theorem witness_WellFormedInstructionsRaiseNoOperandFault : (Instr.pop 32768).wellFormed = true ∧
    (block []).status ≠ .faulted ∧
    ∃ t, exec (.pop 32768) (block []) = .next t ∧ t.status = .faulted ∧ t.faultCause = .stackUnderflow :=
  ⟨by decide, by decide, _, rfl, rfl, rfl⟩

/-- An instruction whose last word is the last of memory. -/
theorem witness_StepExecutesTheInstructionAtPc :
    let s : State := { block [] with pc := 32766, mem := storeWords 32766 [6, 5] [] }
    Running s ∧ CodeAt s (encode (.jmp 5)) := by decide

theorem witness_EndOfMemoryHaltsAndKeepsPc : Running { block [] with pc := 32768 } ∧
    32768 ≤ ({ block [] with pc := 32768 } : State).pc.toNat := by decide

theorem witness_UnknownOpcodeFaultsWithoutAdvancing : Running (block [22]) ∧ (block [22]).pc.toNat < 32768 ∧
    22 ≤ (readWord (block [22]).mem (block [22]).pc.toNat).toNat := by decide

theorem witness_OperandWordPastMemoryFaultsOutOfBounds :
    let s : State := { block [] with pc := 32767, mem := storeWords 32767 [6] [] }
    Running s ∧ s.pc.toNat < 32768 ∧ arity (readWord s.mem s.pc.toNat) = some 1 ∧ 32768 ≤ s.pc.toNat + 1 := by decide

theorem witness_StoppedBlockChangesNothing : (block []).loadError = .none ∧
    ({ block [] with status := .halted } : State).status = .halted ∧
    ({ block [] with status := .faulted } : State).status = .faulted := by decide

theorem witness_HeldBlockTakesNoStep : (launch none .keep [9] [] false).loadError ≠ .none := by
  simp [launch, resetWith, load, heldState]

theorem witness_EveryStepOfALoadedBlockAnswersAState : (block [20, 32768]).loadError = .none := by decide

theorem witness_AFaultChangesOnlyStatusAndRecord : Running (block [3, 32768]) ∧
    ∃ t, step (block [3, 32768]) = .next t ∧ t.status = .faulted := ⟨by decide, _, rfl, by decide⟩

theorem witness_InstructionsRaiseOnlyTheirListedCauses : (block []).status ≠ .faulted ∧
    ∃ t, exec (.mod 32768 1 0) (block []) = .next t ∧ t.status = .faulted ∧ t.faultCause = .divideByZero :=
  ⟨by decide, _, rfl, by decide, by decide⟩

/-- Each of the three ends. -/
theorem witness_OnlyThreeEventsEndARunNormally :
    (Running { block [] with pc := 32768 } ∧ ∃ t, step { block [] with pc := 32768 } = .next t ∧ t.status = .halted) ∧
    (Running (block [0]) ∧ ∃ t, step (block [0]) = .next t ∧ t.status = .halted) ∧
    (Running (block [18]) ∧ ∃ t, step (block [18]) = .next t ∧ t.status = .halted) :=
  ⟨⟨by decide, _, rfl, by decide⟩, ⟨by decide, _, rfl, by decide⟩, ⟨by decide, _, rfl, by decide⟩⟩

/-- A step that does change memory, at the last address. -/
theorem witness_MemoryChangesOnlyThroughWmem : (block [16, 32767, 42]).mem.wf = true ∧
    ∃ t, step (block [16, 32767, 42]) = .next t ∧ t.mem ≠ (block [16, 32767, 42]).mem := ⟨by decide, _, rfl, by decide⟩

theorem witness_OnlyFourInstructionsReachTheStack :
    ∃ t, exec (.push 7) (block []) = .next t ∧ t.stack ≠ (block []).stack := ⟨_, rfl, by decide⟩

theorem witness_OnlyTheNamedDestinationRegisterChanges :
    ∃ t, exec (.set 32775 7) (block []) = .next t ∧ t.regs[(7 : Fin 8)] ≠ (block []).regs[(7 : Fin 8)] :=
  ⟨_, rfl, by decide⟩

theorem witness_ChannelsMoveOnlyByInAndOut :
    (∃ t, exec (.out 65) (block []) = .next t ∧ t.outq ≠ (block []).outq) ∧
    ∃ t, exec (.inp 32768) { block [] with inq := [120] } = .next t ∧ t.inq = [] :=
  ⟨⟨_, rfl, by decide⟩, _, rfl, by decide⟩

/-- The fall-through, a target, the popped Word, and the wait. -/
theorem witness_NewPcIsNextTargetOrPoppedWord : (block []).status ≠ .faulted ∧
    (∃ t, exec .noop (block []) = .next t ∧ t.status ≠ .faulted) ∧
    (∃ t, exec (.jmp 100) (block []) = .next t ∧ t.status ≠ .faulted) ∧
    (∃ t, exec .ret { block [] with stack := [9] } = .next t ∧ t.status ≠ .faulted) ∧
    ∃ t, exec (.inp 32768) (block []) = .next t ∧ t.status ≠ .faulted :=
  ⟨by decide, ⟨_, rfl, by decide⟩, ⟨_, rfl, by decide⟩, ⟨_, rfl, by decide⟩, _, rfl, by decide⟩

theorem witness_JumpPastMemoryEndsTheRunAtTheNextStep :
    let s := blockWith [6, 32771] 3 32768
    Running s ∧ CodeAt s [6, 32771] ∧ Names 32771 3 ∧ 32768 ≤ (s.regs[(3 : Fin 8)]).toNat := by decide

/-- `wmem 3 reg0` with reg0 = 21 writes a `noop` over the next opcode word. -/
theorem witness_AStoreIsSeenByTheNextFetch :
    let s := blockWith [16, 3, 32768] 0 21
    Running s ∧ s.mem.wf = true ∧ CodeAt s [16, 3, 32768] ∧ Worth s 3 3 ∧ Worth s 32768 21 ∧
      (3 : Word).toNat = s.pc.toNat + 3 ∧ (3 : Word).toNat < 32768 ∧ encode .noop = [21] := by decide

theorem witness_EarlierOutputInfluencesNothing : ∃ t, step (block [19, 65]) = .next t := ⟨_, rfl⟩

/-- A bounded block whose stack is at its limit has the invariant, and its `push` takes a step to a faulted one. -/
theorem witness_EveryStepKeepsTheInvariant :
    let s : State := { block [2, 7] with stack := [5], stackLimit := some 1 }
    Invariant s ∧ ∃ t, step s = .next t :=
  ⟨⟨by decide, fun l h => (by cases h; decide), fun _ => by decide, fun h => (by cases h)⟩, _, rfl⟩

theorem witness_EveryEventKeepsTheInvariant :
    Invariant (block []) ∧ ∃ t, react (.reset [21, 0] [120] true) (block []) = .next t ∧ t.loadError = .none :=
  ⟨⟨by decide, fun l h => (by cases h), fun _ => by decide, fun h => (by cases h)⟩, _, rfl, by decide⟩

theorem witness_ResetClearsRegistersAndStack :
    (resetWith [21, 0] [] false { blockWith [] 3 9 with stack := [5] }).loadError = .none := by decide

/-- The empty image, and one of two bytes; the longest, 65536 bytes, is `List.replicate 65536 0`. -/
theorem witness_ResetLoadsTheImageAndStartsAtZero : ([] : List Byte).length ≤ 65536 ∧ [9, (0 : Byte)].length % 2 = 0 ∧
    (List.replicate 65536 (0 : Byte)).length ≤ 65536 ∧ (List.replicate 65536 (0 : Byte)).length % 2 = 0 := by
  rw [List.length_replicate]; decide

theorem witness_UnloadableImageLeavesTheBlockHeld : 65536 < (List.replicate 65537 (0 : Byte)).length ∧
    [(9 : Byte)].length ≤ 65536 ∧ [(9 : Byte)].length % 2 = 1 := by
  rw [List.length_replicate]; decide

theorem witness_SetCopiesAValueToARegister :
    (Names 32775 7 ∧ Worth (block []) 32767 32767) ∧ (Names 32768 0 ∧ Worth (blockWith [] 7 40000) 32775 40000) ∧
    NamesNone 32767 ∧ NamesNone 32776 ∧ (Names 32768 0 ∧ Worthless 32776) := by decide

/-- An unbounded stack and one with a single place left have room; one at its limit is full. -/
theorem witness_PushPutsAValueOnTop :
    (Worth (block []) 7 7 ∧ Room (block [])) ∧ Room { block [] with stack := [5], stackLimit := some 2 } ∧
    Worthless 32776 ∧
    (Worth (block []) 32773 0 ∧ Full { block [] with stack := [5], stackLimit := some 1 }) :=
  ⟨⟨by decide, fun l h => (by cases h)⟩, fun l h => (by cases h; decide), by decide, by decide, 1, rfl, rfl⟩

theorem witness_PopTakesTheTopOrUnderflows : (Names 32769 1 ∧ ({ block [] with stack := [5] } : State).stack = 5 :: []) ∧
    NamesNone 5 ∧ (Names 32769 1 ∧ (block []).stack = []) := by decide

theorem witness_PoppingReturnsThePushedSequenceReversed :
    (∀ l : ℕ+, (block []).stackLimit = some l → (block []).stack.length + [1, 2, (3 : Word)].length ≤ l) ∧
    ∀ l : ℕ+, ({ block [] with stackLimit := some 3 } : State).stackLimit = some l → 0 + [1, 2, (3 : Word)].length ≤ l :=
  ⟨fun l h => (by cases h), fun l h => (by cases h; decide)⟩

/-- For the six statements made with `WritesOfTwo`: eq, gt, add, mult, and, or. -/
theorem witness_WritesOfTwo :
    (Names 32775 7 ∧ Worth (blockWith [] 7 65535) 32767 32767 ∧ Worth (blockWith [] 7 65535) 32775 65535) ∧
    (NamesNone 32767 ∧ NamesNone 32776) ∧ (Names 32768 0 ∧ Worthless 32776) ∧
    (Names 32768 0 ∧ Worth (block []) 32768 0 ∧ Worthless 65535) := by decide

theorem witness_JmpSetsPcToItsTarget : Worth (block []) 32767 32767 ∧ Worth (blockWith [] 0 65535) 32768 65535 ∧
    Worthless 32776 := by decide

theorem witness_JtJumpsIffItsConditionIsNotZero :
    (Worth (blockWith [] 0 40000) 32768 40000 ∧ (40000 : Word) ≠ 0 ∧ Worth (block []) 5 5) ∧
    (Worth (block []) 32768 0 ∧ (0 : Word) = 0) ∧ Worthless 32776 ∧
    (Worth (block []) 1 1 ∧ (1 : Word) ≠ 0 ∧ Worthless 32776) := by decide

theorem witness_JfJumpsIffItsConditionIsZero :
    (Worth (block []) 32768 0 ∧ (0 : Word) = 0 ∧ Worth (block []) 5 5) ∧
    (Worth (block []) 1 1 ∧ (1 : Word) ≠ 0) ∧ Worthless 32776 ∧
    (Worth (block []) 0 0 ∧ (0 : Word) = 0 ∧ Worthless 32776) := by decide

theorem witness_CallPushesNextAndJumps :
    (Worth (block []) 9 9 ∧ Room (block [])) ∧ Worthless 32776 ∧
    (Worth (block []) 9 9 ∧ Full { block [] with stack := [5], stackLimit := some 1 }) :=
  ⟨⟨by decide, fun l h => (by cases h)⟩, by decide, by decide, 1, rfl, rfl⟩

theorem witness_RetGoesToThePoppedWordOrHalts : ({ block [] with stack := [5] } : State).stack = 5 :: [] ∧
    (block []).stack = [] := by decide

theorem witness_RetAfterCallReturnsPastTheCall : Worth (block []) 9 9 ∧ Room (block []) :=
  ⟨by decide, fun l h => by cases h⟩

theorem witness_ModWritesTheRemainderOrFaults :
    (Names 32768 0 ∧ Worth (blockWith [] 1 40000) 32769 40000 ∧ Worth (blockWith [] 1 40000) 7 7 ∧ (7 : Word) ≠ 0) ∧
    (Names 32768 0 ∧ Worth (block []) 10 10 ∧ Worth (block []) 0 0 ∧ Worth (block []) 32770 0) ∧
    (NamesNone 5 ∧ NamesNone 32776) ∧ (Names 32768 0 ∧ Worthless 32776) ∧
    (Names 32768 0 ∧ Worth (block []) 10 10 ∧ Worthless 32776) := by decide

/-- Bit 15 clear, at the end of its range, and set, under each value of NOT_BIT15. -/
theorem witness_NotInvertsFifteenBits :
    (Names 32768 0 ∧ Worth (block []) 32767 32767 ∧ (32767 : Word).toNat < 32768) ∧
    (Worth (blockWith [] 1 32768) 32769 32768 ∧ 32768 ≤ (32768 : Word).toNat ∧ (blockWith [] 1 32768).notBit15 = .keep) ∧
    (Worth { blockWith [] 1 65535 with notBit15 := .clear } 32769 65535 ∧ 32768 ≤ (65535 : Word).toNat) ∧
    (NamesNone 32767 ∧ NamesNone 32776) ∧ (Names 32768 0 ∧ Worthless 32776) := by decide

theorem witness_NotTwiceGivesTheWordBack : Names 32768 0 ∧ ((blockWith [] 0 32767).regs[(0 : Fin 8)]).toNat < 32768 ∧
    (blockWith [] 0 65535).notBit15 = .keep := by decide

theorem witness_RmemLoadsTheAddressedWord : (Names 32770 2 ∧ Worth (block []) 32767 32767 ∧ (32767 : Word).toNat < 32768) ∧
    (NamesNone 32767 ∧ NamesNone 32776) ∧ (Names 32768 0 ∧ Worthless 32776) ∧
    (Names 32768 0 ∧ Worth (blockWith [] 0 32768) 32768 32768 ∧ 32768 ≤ (32768 : Word).toNat) := by decide

theorem witness_WmemStoresOneWordAndNothingElse : (block [16, 100, 42]).mem.wf = true ∧
    (Worth (block []) 32767 32767 ∧ Worth (blockWith [] 1 65535) 32769 65535 ∧ (32767 : Word).toNat < 32768) ∧
    Worthless 32776 ∧ (Worth (blockWith [] 0 40000) 32768 40000 ∧ Worthless 32776) ∧
    (Worth (blockWith [] 0 32768) 32768 32768 ∧ Worth (blockWith [] 0 32768) 1 1 ∧ 32768 ≤ (32768 : Word).toNat) := by
  decide

theorem witness_OutAppendsTheWholeWord : Worth (blockWith [] 0 300) 32768 300 ∧ Worthless 32776 := by decide

theorem witness_InTakesOneCodeWaitsOrFaults :
    (Names 32775 7 ∧ ({ block [] with inq := [120] } : State).inq = 120 :: []) ∧
    (({ block [] with inEof := true } : State).inq = [] ∧ ({ block [] with inEof := true } : State).inEof = true) ∧
    ((block []).inq = [] ∧ (block []).inEof = false) ∧ NamesNone 5 := by decide

theorem witness_AWaitIsLiftedByTheHostsTwoMoves :
    let s := block [20, 32768]
    Running s ∧ CodeAt s [20, 32768] ∧ Names 32768 0 ∧ s.inq = [] ∧ s.inEof = false := by decide

end Sys2Proof.Tests
end

section
/-! What a reset leaves (70_reset_and_hazards.md R241, 60_exceptions.md R226): the fresh state when the image loads, the held
state when it does not; `load_error` tells which. -/

namespace Sys2Proof.Machine

@[simp] theorem freshState_regs (m : Memory) (inq : List Byte) (eof : Bool) (s : State) :
    (freshState m inq eof s).regs = Vector.replicate 8 0 := rfl

@[simp] theorem freshState_stack (m : Memory) (inq : List Byte) (eof : Bool) (s : State) :
    (freshState m inq eof s).stack = [] := rfl

@[simp] theorem freshState_loadError (m : Memory) (inq : List Byte) (eof : Bool) (s : State) :
    (freshState m inq eof s).loadError = .none := rfl

@[simp] theorem heldState_loadError (e : LoadError) (image inq : List Byte) (eof : Bool) (s : State) :
    (heldState e image inq eof s).loadError = e := rfl

theorem resetWith_of_load_ok {image : List Byte} {m : Memory} (h : load image = .ok m) (inq : List Byte) (eof : Bool)
    (s : State) : resetWith image inq eof s = freshState m inq eof s := by
  simp only [resetWith, h]

theorem resetWith_of_load_error {image : List Byte} {e : LoadError} (h : load image = .error e) (inq : List Byte) (eof : Bool)
    (s : State) : resetWith image inq eof s = heldState e image inq eof s := by
  simp only [resetWith, h]

/-- The loader's error is a cause: `none` is the value of `load_error` for an image that loads. -/
theorem load_error_ne_none {image : List Byte} {e : LoadError} (h : load image = .error e) : e ≠ .none := by
  obtain ⟨-, hl⟩ | ⟨-, -, hl⟩ | ⟨-, -, hl⟩ := load_cases image <;> rw [hl] at h <;> cases h <;> decide

/-- A reset that reports no load error has loaded its image, and the block is in the fresh state. -/
theorem resetWith_of_loadError_none {image inq : List Byte} {eof : Bool} {s : State}
    (h : (resetWith image inq eof s).loadError = .none) :
    ∃ m, load image = .ok m ∧ resetWith image inq eof s = freshState m inq eof s := by
  cases hl : load image with
  | ok m => exact ⟨m, rfl, resetWith_of_load_ok hl inq eof s⟩
  | error e =>
    rw [resetWith_of_load_error hl, heldState_loadError] at h
    exact absurd h (load_error_ne_none hl)

end Sys2Proof.Machine
end

section
/-! The statements about reset (10_state.md). -/

namespace Sys2Proof.Proofs

open Sys2Proof.Machine

/-- Settles O30: a reset without a load error leaves the fresh state, whatever the state before it. -/
theorem resetClearsRegistersAndStack : Obligations.ResetClearsRegistersAndStack := by
  intro image inq eof s h
  obtain ⟨m, -, hfresh⟩ := resetWith_of_loadError_none h
  rw [hfresh]
  exact ⟨fun i => by simp, freshState_stack m inq eof s⟩

end Sys2Proof.Proofs
end

section
/-! What an operand word is worth, range by range (30_encoding.md R84, R85): each follows from what the classifier makes of the
word (R83). -/

namespace Sys2Proof.Machine

theorem readOp_lit {w : Word} (h : w.toNat ≤ 32767) (s : State) : readOp w s = .ok w := by
  simp only [readOp, classify_lit h]

/-- The register's Word is the answer as it is: it is not classified again (R23). -/
theorem readOp_reg {w : Word} {i : Fin 8} (h : w.toNat = 32768 + i.val) (s : State) : readOp w s = .ok s.regs[i] := by
  simp only [readOp, classify_reg h, reg]

theorem readOp_inv {w : Word} (h : 32776 ≤ w.toNat) (s : State) : readOp w s = .error .invalidOperand := by
  simp only [readOp, classify_inv h]

theorem destOp_reg {w : Word} {i : Fin 8} (h : w.toNat = 32768 + i.val) : destOp w = .ok i := by
  simp only [destOp, classify_reg h]

theorem destOp_lit {w : Word} (h : w.toNat ≤ 32767) : destOp w = .error .invalidDestination := by
  simp only [destOp, classify_lit h]

theorem destOp_inv {w : Word} (h : 32776 ≤ w.toNat) : destOp w = .error .invalidDestination := by
  simp only [destOp, classify_inv h]

end Sys2Proof.Machine
end

section
/-! The statements about operand words (30_encoding.md). -/

namespace Sys2Proof.Proofs

open Sys2Proof.Machine

/-- Settles O1: the classifier's own three lemmas, one for each range. -/
theorem classifierSplitsOperandWordsByRange : Obligations.ClassifierSplitsOperandWordsByRange :=
  fun _ => ⟨classify_lit, fun _ => classify_reg, classify_inv⟩

/-- Settles O2: the value operand, range by range. -/
theorem valueOperandIsLiteralOrRegisterContents : Obligations.ValueOperandIsLiteralOrRegisterContents :=
  fun s _ => ⟨fun h => readOp_lit h s, fun _ h => readOp_reg h s, fun h => readOp_inv h s⟩

/-- Settles O3: the destination operand, range by range; a literal and an invalid word fail alike. -/
theorem destinationOperandMustNameARegister : Obligations.DestinationOperandMustNameARegister :=
  fun _ => ⟨fun _ => destOp_reg, fun h => h.elim destOp_lit destOp_inv⟩

end Sys2Proof.Proofs
end

section
/-! What the instructions without operands do (41_machine_control.md). -/

namespace Sys2Proof.Machine

/-- `next` of an instruction without operands is `pc0 + 1` (R88). -/
theorem advance_zero (s : State) : advance 0 s = { s with pc := s.pc + 1 } := rfl

theorem exec_noop (s : State) : exec .noop s = .next (advance 0 s) := rfl

end Sys2Proof.Machine
end

section
/-! The statement about `noop` (41_machine_control.md). -/

namespace Sys2Proof.Proofs

open Sys2Proof.Machine

/-- Settles O34: `noop` only falls through, and the fall-through writes `pc` alone. -/
theorem noopOnlyAdvancesPc : Obligations.NoopOnlyAdvancesPc := by
  intro s
  rw [exec_noop, advance_zero]

end Sys2Proof.Proofs
end

section
/-! The statements' words for operands and the stack (R27, R83), answered by the model's operations: what a word is worth, what it
names, and whether a push has room. -/

namespace Sys2Proof.Machine

open Sys2Proof.Claims

theorem readOp_of_worth {s : State} {w v : Word} (h : Worth s w v) : readOp w s = .ok v := by
  obtain ⟨hlit, rfl⟩ | ⟨i, hreg, rfl⟩ := h
  · exact readOp_lit hlit s
  · exact readOp_reg hreg s

theorem readOp_of_worthless {w : Word} (h : Worthless w) (s : State) : readOp w s = .error .invalidOperand :=
  readOp_inv h s

theorem destOp_of_namesNone {w : Word} (h : NamesNone w) : destOp w = .error .invalidDestination :=
  h.elim (fun hlit => destOp_lit (Nat.le_of_lt_succ hlit)) destOp_inv

theorem not_full_of_room {s : State} (h : Room s) : ¬ Full s := fun ⟨l, hlimit, hlen⟩ => h l hlimit hlen

theorem pushWord_of_room {s : State} (h : Room s) (v : Word) : pushWord v s = .ok { s with stack := v :: s.stack } := by
  obtain ⟨-, hpush⟩ | ⟨hfull, -⟩ := pushWord_cases v s
  · exact hpush
  · exact absurd hfull (not_full_of_room h)

theorem pushWord_of_full {s : State} (h : Full s) (v : Word) : pushWord v s = .error .stackOverflow := by
  obtain ⟨hroom, -⟩ | ⟨-, hpush⟩ := pushWord_cases v s
  · exact absurd h (not_full_of_room hroom)
  · exact hpush

/-- An instruction that raised a cause ends in the fault with that cause (R214). -/
theorem faults_conclude_error (c : Cause) (s : State) : Faults c (conclude s (.error c)) :=
  ⟨raise c s, conclude_error s c, raise_status c s, raise_faultCause c s⟩

end Sys2Proof.Machine
end

section
/-! What `set` and `push` do, by what their operands resolve to (42_data_and_stack.md R130, R131). -/

namespace Sys2Proof.Machine

/-- `next` of an instruction with one operand is `pc0 + 2` (R88). -/
theorem advance_one (s : State) : advance 1 s = { s with pc := s.pc + 2 } := rfl

/-- `next` of an instruction with two operands is `pc0 + 3` (R88). -/
theorem advance_two (s : State) : advance 2 s = { s with pc := s.pc + 3 } := rfl

/-- The destination is resolved first: nothing after it can change its fault (R91). -/
theorem unaryOp_of_destOp_error {a : Word} {c : Cause} (ha : destOp a = .error c) (f : Word → Except Cause Word) (b : Word)
    (s : State) : unaryOp f a b s = .error c := by
  rw [unaryOp, ha]
  rfl

theorem unaryOp_of_readOp_error {a b : Word} {d : Fin 8} {s : State} {c : Cause} (ha : destOp a = .ok d)
    (hb : readOp b s = .error c) (f : Word → Except Cause Word) : unaryOp f a b s = .error c := by
  rw [unaryOp, ha, hb]
  rfl

theorem exec_set (a b : Word) (s : State) : exec (.set a b) s = conclude s (unaryOp .ok a b s) := rfl

theorem exec_push_of_readOp_error {a : Word} {s : State} {c : Cause} (ha : readOp a s = .error c) :
    exec (.push a) s = conclude s (.error c) := by
  rw [exec, execPush, ha]
  rfl

theorem exec_push_of_pushWord_error {a v : Word} {s : State} {c : Cause} (ha : readOp a s = .ok v)
    (hpush : pushWord v s = .error c) : exec (.push a) s = conclude s (.error c) := by
  simp only [exec, execPush, ha, hpush, bind, Except.bind]

theorem exec_push_of_pushWord_ok {a v : Word} {s t : State} (ha : readOp a s = .ok v) (hpush : pushWord v s = .ok t) :
    exec (.push a) s = .next (advance 1 t) := by
  simp only [exec, execPush, ha, hpush, bind, Except.bind, pure, Except.pure, conclude_ok]

end Sys2Proof.Machine
end

section
/-! The statements about `set` and `push` (42_data_and_stack.md). -/

namespace Sys2Proof.Proofs

open Sys2Proof.Machine

/-- Settles O35: the destination is resolved before the value, and either one's fault is the instruction's. -/
theorem setCopiesAValueToARegister : Obligations.SetCopiesAValueToARegister := by
  intro s a b
  refine ⟨fun d v ha hb => ?completes, fun ha => ?noDestination, fun d ha hb => ?noValue⟩
  case completes =>
    have hset := unaryOp_ok.2 ⟨d, v, v, destOp_reg ha, readOp_of_worth hb, rfl, rfl⟩
    rw [exec_set, hset, conclude_ok, advance_two, setReg]
  case noDestination =>
    rw [exec_set, unaryOp_of_destOp_error (destOp_of_namesNone ha)]
    exact faults_conclude_error _ s
  case noValue =>
    rw [exec_set, unaryOp_of_readOp_error (destOp_reg ha) (readOp_of_worthless hb s)]
    exact faults_conclude_error _ s

/-- Settles O36: the value is resolved before the push, and the push fails only on a full stack. -/
theorem pushPutsAValueOnTop : Obligations.PushPutsAValueOnTop := by
  intro s a
  refine ⟨fun v ha hroom => ?completes, fun ha => ?noValue, fun v ha hfull => ?noRoom⟩
  case completes =>
    rw [exec_push_of_pushWord_ok (readOp_of_worth ha) (pushWord_of_room hroom v), advance_one]
  case noValue =>
    rw [exec_push_of_readOp_error (readOp_of_worthless ha s)]
    exact faults_conclude_error _ s
  case noRoom =>
    rw [exec_push_of_pushWord_error (readOp_of_worth ha) (pushWord_of_full hfull v)]
    exact faults_conclude_error _ s

end Sys2Proof.Proofs
end

section
/-! The shape D, V, V: what it raises, operand by operand, and the rule of every instruction that is this shape with a function
that cannot fail (30_encoding.md R86, R91). -/

namespace Sys2Proof.Machine

open Sys2Proof.Claims

/-- `next` of an instruction with three operands is `pc0 + 4` (R88). -/
theorem advance_three (s : State) : advance 3 s = { s with pc := s.pc + 4 } := rfl

/-- The destination is resolved first: nothing after it can change its fault (R91). -/
theorem binaryOp_of_destOp_error {a : Word} {e : Cause} (ha : destOp a = .error e) (f : Word → Word → Except Cause Word)
    (b c : Word) (s : State) : binaryOp f a b c s = .error e := by
  rw [binaryOp, ha]
  rfl

theorem binaryOp_of_readOp_first_error {a b : Word} {d : Fin 8} {s : State} {e : Cause} (ha : destOp a = .ok d)
    (hb : readOp b s = .error e) (f : Word → Word → Except Cause Word) (c : Word) : binaryOp f a b c s = .error e := by
  rw [binaryOp, ha, hb]
  rfl

theorem binaryOp_of_readOp_second_error {a b c vb : Word} {d : Fin 8} {s : State} {e : Cause} (ha : destOp a = .ok d)
    (hb : readOp b s = .ok vb) (hc : readOp c s = .error e) (f : Word → Word → Except Cause Word) :
    binaryOp f a b c s = .error e := by
  rw [binaryOp, ha, hb, hc]
  rfl

/-- The operands are resolved in the order a, b, c, and the first that fails is the instruction's fault; when all three resolve
the instruction completes. -/
theorem writesOfTwo_of_exec {op : Word → Word → Word → Instr} {f : Word → Word → Word}
    (hexec : ∀ a b c s, exec (op a b c) s = conclude s (binaryOp (fun vb vc => .ok (f vb vc)) a b c s)) :
    WritesOfTwo op f := by
  intro s a b c
  rw [hexec]
  refine ⟨fun d vb vc ha hb hc => ?completes, fun ha => ?noDestination, fun d ha hb => ?noFirstValue,
    fun d vb ha hb hc => ?noSecondValue⟩
  case completes =>
    have hop : binaryOp (fun vb vc => .ok (f vb vc)) a b c s = .ok (advance 3 (setReg d (f vb vc) s)) :=
      binaryOp_ok.2 ⟨d, vb, vc, f vb vc, destOp_reg ha, readOp_of_worth hb, readOp_of_worth hc, rfl, rfl⟩
    rw [hop, conclude_ok, advance_three, setReg]
  case noDestination =>
    rw [binaryOp_of_destOp_error (destOp_of_namesNone ha)]
    exact faults_conclude_error _ s
  case noFirstValue =>
    rw [binaryOp_of_readOp_first_error (destOp_reg ha) (readOp_of_worthless hb s)]
    exact faults_conclude_error _ s
  case noSecondValue =>
    rw [binaryOp_of_readOp_second_error (destOp_reg ha) (readOp_of_worth hb) (readOp_of_worthless hc s)]
    exact faults_conclude_error _ s

end Sys2Proof.Machine
end

section
/-! What `eq` and `gt` write: the Word of a truth value (43_compare.md R140, R141). -/

namespace Sys2Proof.Machine

theorem truthWord_decide (p : Prop) [Decidable p] : truthWord (decide p) = if p then 1 else 0 := by
  simp only [truthWord, decide_eq_true_eq]

theorem truthWord_beq (vb vc : Word) : truthWord (vb == vc) = if vb = vc then 1 else 0 := by
  rw [beq_eq_decide, truthWord_decide]

theorem exec_eq (a b c : Word) (s : State) :
    exec (.eq a b c) s = conclude s (binaryOp (fun vb vc => .ok (truthWord (vb == vc))) a b c s) := rfl

theorem exec_gt (a b c : Word) (s : State) :
    exec (.gt a b c) s = conclude s (binaryOp (fun vb vc => .ok (truthWord (decide (vb.toNat > vc.toNat)))) a b c s) := rfl

end Sys2Proof.Machine
end

section
/-! The statements about `eq` and `gt` (43_compare.md). -/

namespace Sys2Proof.Proofs

open Sys2Proof.Machine

/-- Settles O39: `eq` has the shape D, V, V, and the truth value it writes is the equality of the full Words. -/
theorem eqWritesWhetherWordsAreEqual : Obligations.EqWritesWhetherWordsAreEqual :=
  writesOfTwo_of_exec fun a b c s => by
    simp only [exec_eq, truthWord_beq]

/-- Settles O40: `gt` has the shape D, V, V, and the truth value it writes is the order of the Words' numbers. -/
theorem gtWritesWhetherWordIsGreaterUnsigned : Obligations.GtWritesWhetherWordIsGreaterUnsigned :=
  writesOfTwo_of_exec fun a b c s => by
    simp only [exec_gt, truthWord_decide, gt_iff_lt]

end Sys2Proof.Proofs
end

section
/-! What `jmp` does, and the rule of the shape V, V* that `jt` and `jf` share: its jump taken, its jump not taken, and what each of
its two operands raises (30_encoding.md R86, R91; 44_control_flow.md R151). -/

namespace Sys2Proof.Machine

open Sys2Proof.Claims

theorem exec_jmp_of_readOp_ok {a t : Word} {s : State} (ha : readOp a s = .ok t) : exec (.jmp a) s = .next (setPc t s) := by
  rw [exec, execJmp, ha]
  rfl

theorem exec_jmp_of_readOp_error {a : Word} {s : State} {c : Cause} (ha : readOp a s = .error c) :
    exec (.jmp a) s = conclude s (.error c) := by
  rw [exec, execJmp, ha]
  rfl

/-- The condition is resolved first: nothing after it can change its fault (R91). -/
theorem branchOp_of_condition_error {a : Word} {s : State} {e : Cause} (ha : readOp a s = .error e)
    (selects : Word → Bool) (b : Word) : branchOp selects a b s = .error e := by
  rw [branchOp, ha]
  rfl

theorem branchOp_of_target_error {selects : Word → Bool} {a b c : Word} {s : State} {e : Cause} (ha : readOp a s = .ok c)
    (hc : selects c = true) (hb : readOp b s = .error e) : branchOp selects a b s = .error e := by
  simp only [branchOp, ha, hc, hb, bind, Except.bind, if_true]

theorem conclude_branchOp_taken {selects : Word → Bool} {a b c t : Word} {s : State} (ha : Worth s a c)
    (hc : selects c = true) (hb : Worth s b t) : conclude s (branchOp selects a b s) = .next { s with pc := t } := by
  have hjump : branchOp selects a b s = .ok (setPc t s) :=
    branchOp_ok.2 ⟨c, readOp_of_worth ha, .inl ⟨hc, t, readOp_of_worth hb, rfl⟩⟩
  rw [hjump, conclude_ok, setPc]

/-- The target of a jump not taken may be any word: it is not resolved (R91). -/
theorem conclude_branchOp_not_taken {selects : Word → Bool} {a c : Word} {s : State} (ha : Worth s a c)
    (hc : selects c = false) (b : Word) : conclude s (branchOp selects a b s) = .next { s with pc := s.pc + 3 } := by
  have hfall : branchOp selects a b s = .ok (advance 2 s) := branchOp_ok.2 ⟨c, readOp_of_worth ha, .inr ⟨hc, rfl⟩⟩
  rw [hfall, conclude_ok, advance_two]

theorem faults_branchOp_of_worthless_condition {a : Word} (ha : Worthless a) (selects : Word → Bool) (b : Word) (s : State) :
    Faults .invalidOperand (conclude s (branchOp selects a b s)) := by
  rw [branchOp_of_condition_error (readOp_of_worthless ha s)]
  exact faults_conclude_error _ s

theorem faults_branchOp_of_worthless_target {selects : Word → Bool} {a b c : Word} {s : State} (ha : Worth s a c)
    (hc : selects c = true) (hb : Worthless b) : Faults .invalidOperand (conclude s (branchOp selects a b s)) := by
  rw [branchOp_of_target_error (readOp_of_worth ha) hc (readOp_of_worthless hb s)]
  exact faults_conclude_error _ s

end Sys2Proof.Machine
end

section
/-! Which conditions select the jump of `jt` and of `jf` (44_control_flow.md R152, R153). -/

namespace Sys2Proof.Machine

theorem nonZero_eq_true_iff (v : Word) : nonZero v = true ↔ v ≠ 0 := bne_iff_ne

theorem nonZero_eq_false_iff (v : Word) : nonZero v = false ↔ v = 0 := bne_eq_false_iff_eq

theorem not_nonZero_eq_true_iff (v : Word) : (!nonZero v) = true ↔ v = 0 := by
  rw [Bool.not_eq_true', nonZero_eq_false_iff]

theorem not_nonZero_eq_false_iff (v : Word) : (!nonZero v) = false ↔ v ≠ 0 := by
  rw [Bool.not_eq_false', nonZero_eq_true_iff]

theorem exec_jt (a b : Word) (s : State) : exec (.jt a b) s = conclude s (branchOp nonZero a b s) := rfl

theorem exec_jf (a b : Word) (s : State) : exec (.jf a b) s = conclude s (branchOp (fun c => !nonZero c) a b s) := rfl

end Sys2Proof.Machine
end

section
/-! The statements about `jmp`, `jt` and `jf` (44_control_flow.md). -/

namespace Sys2Proof.Proofs

open Sys2Proof.Machine

/-- Settles O41: the only thing that can fail is the target operand; the target itself is never checked (R156). -/
theorem jmpSetsPcToItsTarget : Obligations.JmpSetsPcToItsTarget := by
  intro s a
  refine ⟨fun t ha => ?jumps, fun ha => ?noTarget⟩
  case jumps =>
    rw [exec_jmp_of_readOp_ok (readOp_of_worth ha), setPc]
  case noTarget =>
    rw [exec_jmp_of_readOp_error (readOp_of_worthless ha s)]
    exact faults_conclude_error _ s

/-- Settles O42: `jt` has the shape V, V*, and every Word but 0 selects its jump. -/
theorem jtJumpsIffItsConditionIsNotZero : Obligations.JtJumpsIffItsConditionIsNotZero := by
  intro s a b
  rw [exec_jt]
  exact ⟨fun c _ ha hc hb => conclude_branchOp_taken ha ((nonZero_eq_true_iff c).2 hc) hb,
    fun c ha hc => conclude_branchOp_not_taken ha ((nonZero_eq_false_iff c).2 hc) b,
    fun ha => faults_branchOp_of_worthless_condition ha _ b s,
    fun c ha hc hb => faults_branchOp_of_worthless_target ha ((nonZero_eq_true_iff c).2 hc) hb⟩

/-- Settles O43: `jf` has the shape V, V*, and only the Word 0 selects its jump. -/
theorem jfJumpsIffItsConditionIsZero : Obligations.JfJumpsIffItsConditionIsZero := by
  intro s a b
  rw [exec_jf]
  exact ⟨fun c _ ha hc hb => conclude_branchOp_taken ha ((not_nonZero_eq_true_iff c).2 hc) hb,
    fun c ha hc => conclude_branchOp_not_taken ha ((not_nonZero_eq_false_iff c).2 hc) b,
    fun ha => faults_branchOp_of_worthless_condition ha _ b s,
    fun c ha hc hb => faults_branchOp_of_worthless_target ha ((not_nonZero_eq_true_iff c).2 hc) hb⟩

end Sys2Proof.Proofs
end

section
/-! Four instructions of the ALU are the shape D, V, V with a function that cannot fail (45_alu.md R171, R172, R174, R175). -/

namespace Sys2Proof.Machine

theorem exec_add (a b c : Word) (s : State) :
    exec (.add a b c) s = conclude s (binaryOp (fun vb vc => .ok (aluAdd vb vc)) a b c s) := rfl

theorem exec_mult (a b c : Word) (s : State) :
    exec (.mult a b c) s = conclude s (binaryOp (fun vb vc => .ok (aluMult vb vc)) a b c s) := rfl

theorem exec_and (a b c : Word) (s : State) :
    exec (.and a b c) s = conclude s (binaryOp (fun vb vc => .ok (vb &&& vc)) a b c s) := rfl

theorem exec_or (a b c : Word) (s : State) :
    exec (.or a b c) s = conclude s (binaryOp (fun vb vc => .ok (vb ||| vc)) a b c s) := rfl

end Sys2Proof.Machine
end

section
/-! The statements about `add`, `mult`, `and` and `or` (45_alu.md). -/

namespace Sys2Proof.Proofs

open Sys2Proof.Machine

/-- Settles O47: `add` has the shape D, V, V, and its sum is taken on numbers before it is reduced (R170). -/
theorem addWritesTheSumModulo32768 : Obligations.AddWritesTheSumModulo32768 :=
  writesOfTwo_of_exec fun a b c s => by
    simp only [exec_add, aluAdd]

/-- Settles O48: `mult` has the shape D, V, V, and its product is taken on numbers, so no bit of it is lost before it is
reduced (R170). -/
theorem multWritesTheProductModulo32768 : Obligations.MultWritesTheProductModulo32768 :=
  writesOfTwo_of_exec fun a b c s => by
    simp only [exec_mult, aluMult]

/-- Settles O50: `and` has the shape D, V, V, and what it writes is already the statement's function. -/
theorem andWritesTheBitwiseAnd : Obligations.AndWritesTheBitwiseAnd :=
  writesOfTwo_of_exec exec_and

/-- Settles O51: `or` has the shape D, V, V, and what it writes is already the statement's function. -/
theorem orWritesTheBitwiseOr : Obligations.OrWritesTheBitwiseOr :=
  writesOfTwo_of_exec exec_or

end Sys2Proof.Proofs
end

section
/-! What `rmem` and `wmem` do, by what their operands resolve to and by the bounds check of the access, which comes after both
(46_memory_access.md R190, R191; 20_memory.md R53). -/

namespace Sys2Proof.Machine

theorem memWrite_of_lt {addr : Word} (v : Word) (s : State) (h : addr.toNat < 32768) :
    memWrite addr v s = .ok { s with mem := writeWord addr.toNat v s.mem } := if_pos h

theorem memWrite_of_ge {addr : Word} (v : Word) (s : State) (h : 32768 ≤ addr.toNat) :
    memWrite addr v s = .error .outOfBounds := if_neg (Nat.not_lt.2 h)

theorem unaryOp_of_function_error {f : Word → Except Cause Word} {a b vb : Word} {d : Fin 8} {s : State} {c : Cause}
    (ha : destOp a = .ok d) (hb : readOp b s = .ok vb) (hf : f vb = .error c) : unaryOp f a b s = .error c := by
  simp only [unaryOp, ha, hb, hf, bind, Except.bind]

theorem exec_rmem (a b : Word) (s : State) :
    exec (.rmem a b) s = conclude s (unaryOp (fun addr => memRead addr s) a b s) := rfl

/-- The address is resolved first: nothing after it can change its fault (R91). -/
theorem exec_wmem_of_address_error {a : Word} {s : State} {c : Cause} (ha : readOp a s = .error c) (b : Word) :
    exec (.wmem a b) s = conclude s (.error c) := by
  rw [exec, execWmem, ha]
  rfl

/-- The value is resolved whatever the address is, so its fault comes before the one of the access (R191). -/
theorem exec_wmem_of_value_error {a b addr : Word} {s : State} {c : Cause} (ha : readOp a s = .ok addr)
    (hb : readOp b s = .error c) : exec (.wmem a b) s = conclude s (.error c) := by
  rw [exec, execWmem, ha, hb]
  rfl

theorem exec_wmem_of_memWrite_error {a b addr v : Word} {s : State} {c : Cause} (ha : readOp a s = .ok addr)
    (hb : readOp b s = .ok v) (hwrite : memWrite addr v s = .error c) : exec (.wmem a b) s = conclude s (.error c) := by
  simp only [exec, execWmem, ha, hb, hwrite, bind, Except.bind]

theorem exec_wmem_of_memWrite_ok {a b addr v : Word} {s t : State} (ha : readOp a s = .ok addr) (hb : readOp b s = .ok v)
    (hwrite : memWrite addr v s = .ok t) : exec (.wmem a b) s = .next (advance 2 t) := by
  simp only [exec, execWmem, ha, hb, hwrite, bind, Except.bind, pure, Except.pure, conclude_ok]

/-- A stored Word occupies its own two bytes and no others (R55). -/
theorem readByte_writeWord_other {m : Memory} {a k : Nat} (v : Word) (hm : m.wf = true) (h : a < 32768) (hlow : k ≠ 2 * a)
    (hhigh : k ≠ 2 * a + 1) : readByte (writeWord a v m) k = readByte m k := by
  rw [readByte_writeWord v k hm h, if_neg hhigh, if_neg hlow]

end Sys2Proof.Machine
end

section
/-! The statements about `rmem` and `wmem` (46_memory_access.md). -/

namespace Sys2Proof.Proofs

open Sys2Proof.Machine

/-- Settles O54: `rmem` has the shape D, V with the bounds-checked read as its function, which is asked last. -/
theorem rmemLoadsTheAddressedWord : Obligations.RmemLoadsTheAddressedWord := by
  intro s a b
  rw [exec_rmem]
  refine ⟨fun d addr ha hb hlt => ?completes, fun ha => ?noDestination, fun d ha hb => ?noAddress,
    fun d addr ha hb hge => ?outOfBounds⟩
  case completes =>
    have hload : unaryOp (fun addr => memRead addr s) a b s = .ok (advance 2 (setReg d (readWord s.mem addr.toNat) s)) :=
      unaryOp_ok.2 ⟨d, addr, _, destOp_reg ha, readOp_of_worth hb, memRead_of_lt s hlt, rfl⟩
    rw [hload, conclude_ok, advance_two, setReg]
  case noDestination =>
    rw [unaryOp_of_destOp_error (destOp_of_namesNone ha)]
    exact faults_conclude_error _ s
  case noAddress =>
    rw [unaryOp_of_readOp_error (destOp_reg ha) (readOp_of_worthless hb s)]
    exact faults_conclude_error _ s
  case outOfBounds =>
    rw [unaryOp_of_function_error (destOp_reg ha) (readOp_of_worth hb) (memRead_of_ge s hge)]
    exact faults_conclude_error _ s

/-- Settles O55: both operands are resolved before the bounds-checked write, and what the memory then reads is said by the laws
of `writeWord`. -/
theorem wmemStoresOneWordAndNothingElse : Obligations.WmemStoresOneWordAndNothingElse := by
  intro s a b hwf
  refine ⟨fun addr v ha hb hlt => ?completes, fun ha => ?noAddress, fun addr ha hb => ?noValue,
    fun addr v ha hb hge => ?outOfBounds⟩
  case completes =>
    refine ⟨writeWord addr.toNat v s.mem, ?next, readWord_writeWord_same v hwf hlt,
      fun _ hc => readWord_writeWord_other v hwf hlt hc, fun _ hlow hhigh => readByte_writeWord_other v hwf hlt hlow hhigh⟩
    rw [exec_wmem_of_memWrite_ok (readOp_of_worth ha) (readOp_of_worth hb) (memWrite_of_lt v s hlt), advance_two]
  case noAddress =>
    rw [exec_wmem_of_address_error (readOp_of_worthless ha s)]
    exact faults_conclude_error _ s
  case noValue =>
    rw [exec_wmem_of_value_error (readOp_of_worth ha) (readOp_of_worthless hb s)]
    exact faults_conclude_error _ s
  case outOfBounds =>
    rw [exec_wmem_of_memWrite_error (readOp_of_worth ha) (readOp_of_worth hb) (memWrite_of_ge v s hge)]
    exact faults_conclude_error _ s

end Sys2Proof.Proofs
end

section
/-! The encoder and the decoder undo each other: on Words, on the bytes of an image, and format by format (30_encoding.md R80 to
R82, R88; 20_memory.md R55). -/

namespace Sys2Proof

/-- The encoding of an instruction is one opcode word and the operand words after it (R80). -/
theorem encode_shape (i : Instr) : Laws.Length.Statement i := by
  cases i with
  | halt => exact Laws.Length.halt
  | set a b => exact Laws.Length.set a b
  | push a => exact Laws.Length.push a
  | pop a => exact Laws.Length.pop a
  | eq a b c => exact Laws.Length.eq a b c
  | gt a b c => exact Laws.Length.gt a b c
  | jmp a => exact Laws.Length.jmp a
  | jt a b => exact Laws.Length.jt a b
  | jf a b => exact Laws.Length.jf a b
  | add a b c => exact Laws.Length.add a b c
  | mult a b c => exact Laws.Length.mult a b c
  | mod a b c => exact Laws.Length.mod a b c
  | and a b c => exact Laws.Length.and a b c
  | or a b c => exact Laws.Length.or a b c
  | not a b => exact Laws.Length.not a b
  | rmem a b => exact Laws.Length.rmem a b
  | wmem a b => exact Laws.Length.wmem a b
  | call a => exact Laws.Length.call a
  | ret => exact Laws.Length.ret
  | out a => exact Laws.Length.out a
  | inp a => exact Laws.Length.inp a
  | noop => exact Laws.Length.noop

theorem length_encode (i : Instr) : (encode i).length = 1 + i.operands.length := by
  obtain ⟨op, hwords, -⟩ := encode_shape i
  rw [hwords, List.length_cons, Nat.add_comm]

/-! ### Bytes of an image -/

/-- A Word read from its own two bytes is that Word: the low byte comes first (R55). -/
theorem wordsOfBytes_bytesOfWord (w : Word) (bs : List Byte) : wordsOfBytes (bytesOfWord w ++ bs) = w :: wordsOfBytes bs :=
  congrArg (· :: wordsOfBytes bs) (Machine.word_of_bytes w)

theorem wordsOfBytes_flatMap (ws : List Word) (bs : List Byte) :
    wordsOfBytes (ws.flatMap bytesOfWord ++ bs) = ws ++ wordsOfBytes bs := by
  induction ws with
  | nil => rfl
  | cons w ws ih => rw [List.flatMap_cons, List.append_assoc, wordsOfBytes_bytesOfWord, ih, List.cons_append]

theorem length_flatMap_bytesOfWord (ws : List Word) : (ws.flatMap bytesOfWord).length = 2 * ws.length := by
  induction ws with
  | nil => rfl
  | cons w ws ih =>
    rw [List.flatMap_cons, List.length_append, ih, List.length_cons, bytesOfWord, List.length_cons, List.length_singleton]
    omega

theorem length_encodeBytes (i : Instr) : (encodeBytes i).length = 2 * (1 + i.operands.length) := by
  rw [encodeBytes, length_flatMap_bytesOfWord, length_encode]

/-! ### Formats -/

/-- The instructions that a format makes are those whose encoding is this opcode word and then the operand words. -/
def Format.EncodesAs (op : Word) : Format → Prop
  | .f0 i => encode i = [op]
  | .f1 mk => ∀ a, encode (mk a) = [op, a]
  | .f2 mk => ∀ a b, encode (mk a b) = [op, a, b]
  | .f3 mk => ∀ a b c, encode (mk a b c) = [op, a, b, c]

/-- The opcode map and the encoder agree on all 22 opcode words (R92). -/
theorem encodesAs_of_format {op : Word} {f : Format} (h : format op = some f) : f.EncodesAs op := by
  unfold format at h
  split at h <;> cases h
  all_goals
    next hop =>
      have hword := congrArg (BitVec.ofNat 16) hop
      rw [BitVec.ofNat_toNat, BitVec.setWidth_eq] at hword
      subst hword
      simp [Format.EncodesAs, encode]

theorem Format.arity_le (f : Format) : f.arity ≤ 3 := by
  cases f <;> simp [Format.arity]

/-- What a format reads is the encoding of its instruction after the opcode word: no word is dropped (R88). -/
theorem Format.read_ok {f : Format} {op : Word} {ws rest : List Word} {i : Instr} (hf : f.EncodesAs op)
    (h : f.read ws = .ok (i, rest)) : op :: ws = encode i ++ rest := by
  unfold Format.read at h
  split at h <;> cases h
  · exact congrArg (· ++ _) hf.symm
  · exact congrArg (· ++ _) (hf _).symm
  · exact congrArg (· ++ _) (hf _ _).symm
  · exact congrArg (· ++ _) (hf _ _ _).symm

/-- With as many words as its arity a format reads an instruction and leaves the words after them. -/
theorem Format.read_of_arity_le {f : Format} {ws : List Word} (h : f.arity ≤ ws.length) :
    ∃ i, f.read ws = .ok (i, ws.drop f.arity) := by
  match f, ws with
  | .f0 i, ws => exact ⟨i, rfl⟩
  | .f1 mk, a :: ws => exact ⟨mk a, rfl⟩
  | .f2 mk, a :: b :: ws => exact ⟨mk a b, rfl⟩
  | .f3 mk, a :: b :: c :: ws => exact ⟨mk a b c, rfl⟩

/-- With fewer words than its arity a format reports the first operand word that is missing (R90). -/
theorem Format.read_of_lt_arity {f : Format} {ws : List Word} (h : ws.length < f.arity) :
    f.read ws = .error (.operandMissing (ws.length + 1)) := by
  match f, ws with
  | .f1 _, [] | .f2 _, [] | .f3 _, [] => rfl
  | .f2 _, [_] | .f3 _, [_] => rfl
  | .f3 _, [_, _] => rfl

/-! ### The decoder -/

theorem decodeWords_of_format {op : Word} {f : Format} (h : format op = some f) (ws : List Word) :
    decodeWords (op :: ws) = f.read ws := by
  simp only [decodeWords, h]

theorem decodeWords_of_ge {op : Word} (h : 22 ≤ op.toNat) (ws : List Word) :
    decodeWords (op :: ws) = .error (.unknownOpcode op) := by
  simp only [decodeWords, (format_eq_none_iff op).2 h]

theorem decodeWords_of_lt_arity {op : Word} {ws : List Word} {n : Nat} (hn : arity op = some n) (h : ws.length < n) :
    decodeWords (op :: ws) = .error (.operandMissing (ws.length + 1)) := by
  obtain ⟨f, hf, rfl⟩ := Option.map_eq_some_iff.1 hn
  rw [decodeWords_of_format hf, Format.read_of_lt_arity h]

theorem decodeWords_ok {ws rest : List Word} {i : Instr} (h : decodeWords ws = .ok (i, rest)) : ws = encode i ++ rest := by
  cases ws with
  | nil => cases h
  | cons op ws =>
    cases hf : format op with
    | none =>
      rw [decodeWords_of_ge ((format_eq_none_iff op).1 hf)] at h
      cases h
    | some f =>
      rw [decodeWords_of_format hf] at h
      exact Format.read_ok (encodesAs_of_format hf) h

/-- The operands decoded are the words after the opcode word, raw (R88). -/
theorem decodeWords_of_arity_le {op : Word} {ws : List Word} {n : Nat} (hn : arity op = some n) (h : n ≤ ws.length) :
    ∃ i, decodeWords (op :: ws) = .ok (i, ws.drop n) ∧ (encode i).head? = some op ∧ i.operands = ws.take n := by
  obtain ⟨f, hf, rfl⟩ := Option.map_eq_some_iff.1 hn
  obtain ⟨i, hread⟩ := Format.read_of_arity_le h
  have hdecode := (decodeWords_of_format hf ws).trans hread
  obtain ⟨op', hwords, -⟩ := encode_shape i
  have hsplit := decodeWords_ok hdecode
  rw [hwords, List.cons_append, List.cons.injEq] at hsplit
  obtain ⟨rfl, htail⟩ := hsplit
  refine ⟨i, hdecode, by rw [hwords, List.head?_cons], List.append_cancel_right (bs := ws.drop f.arity) ?_⟩
  rw [← htail, List.take_append_drop]

end Sys2Proof
end

section
/-! The statements about encoding and decoding (30_encoding.md). -/

namespace Sys2Proof.Proofs

open Sys2Proof.Machine

/-- Settles O4: the image's bytes give back the instruction's words, and the decoder reads these back. -/
theorem decodingEncodedBytesGivesTheInstructionBack : Obligations.DecodingEncodedBytesGivesTheInstructionBack := by
  intro i rest
  have hwords : wordsOfBytes (encodeBytes i ++ rest) = encode i ++ wordsOfBytes rest := wordsOfBytes_flatMap (encode i) rest
  have hdecode : decodeWords (wordsOfBytes (encodeBytes i ++ rest)) = .ok (i, wordsOfBytes rest) := by
    rw [hwords, roundTrip i]
  simp only [decodeBytes, hdecode, ← length_encodeBytes, List.drop_left]

/-- Settles O5: format by format, the words a format reads are those its instruction is encoded as. -/
theorem decodedWordsAreTheInstructionsEncoding : Obligations.DecodedWordsAreTheInstructionsEncoding :=
  fun _ _ _ => decodeWords_ok

/-- Settles O6: each list of words is the encoding of the instruction named beside it. -/
theorem sampleWordsDecodeToTheirInstructions : Obligations.SampleWordsDecodeToTheirInstructions :=
  ⟨roundTrip .noop [], roundTrip (.set 32768 5) [], roundTrip (.pop 32769) [], roundTrip (.eq 32768 5 6) [],
    roundTrip (.jt 32768 100) [], roundTrip (.add 32768 32769 4) [], roundTrip (.not 32768 0) [],
    roundTrip (.rmem 32770 100) [], roundTrip (.wmem 100 42) [], roundTrip (.call 9) [], roundTrip (.out 65) []⟩

/-- Settles O7: an opcode word below 22 has a format, and the format's arity is how many words it reads. -/
theorem opcodeWordAloneTellsWhetherAndHowFar : Obligations.OpcodeWordAloneTellsWhetherAndHowFar := by
  intro op ws
  refine ⟨fun hop => decodeWords_of_ge hop ws, fun hop => ?opcode⟩
  case opcode =>
    obtain ⟨f, hf⟩ := Option.ne_none_iff_exists'.1 (mt (format_eq_none_iff op).1 (Nat.not_le.2 hop))
    have hn : arity op = some f.arity := by rw [arity, hf, Option.map_some]
    exact ⟨f.arity, f.arity_le, hn, decodeWords_of_arity_le hn, decodeWords_of_lt_arity hn⟩

end Sys2Proof.Proofs
end

section
/-! What decoding at `pc` finds, and what a step then is (30_encoding.md R87 to R90; 10_state.md R33; 60_exceptions.md R226). -/

namespace Sys2Proof.Machine

open Sys2Proof.Claims

/-! ### The words from an address on -/

theorem fetchWords_of_lt {a : Nat} (h : a < 32768) (m : Memory) (n : Nat) :
    fetchWords m a (n + 1) = readWord m a :: fetchWords m (a + 1) n := if_pos h

theorem length_fetchWords (m : Memory) (a n : Nat) : (fetchWords m a n).length = min n (32768 - a) := by
  induction n generalizing a with
  | zero => simp [fetchWords]
  | succ n ih =>
    rw [fetchWords]
    split
    · rw [List.length_cons, ih]
      omega
    · rw [List.length_nil]
      omega

/-- Every word fetched stands in memory, at its place from the address on. -/
theorem getElem_fetchWords {m : Memory} {a n k : Nat} (h : k < (fetchWords m a n).length) :
    a + k < 32768 ∧ readWord m (a + k) = (fetchWords m a n)[k] := by
  induction n generalizing a k with
  | zero => cases h
  | succ n ih =>
    by_cases ha : a < 32768
    · cases k with
      | zero => simp [fetchWords_of_lt ha, ha]
      | succ k =>
        rw [fetchWords_of_lt ha, List.length_cons, Nat.succ_lt_succ_iff] at h
        simpa [fetchWords_of_lt ha, Nat.add_assoc, Nat.add_comm 1 k] using ih h
    · rw [length_fetchWords] at h
      omega

/-! ### Decoding at `pc` -/

/-- Decoding finds an instruction exactly where its words stand (R88). -/
theorem fetch_ok_iff {s : State} {i : Instr} : fetch s = .ok i ↔ CodeAt s (encode i) := by
  refine ⟨fun h k hk => ?_, fetch_of_words⟩
  unfold fetch at h
  split at h <;> cases h
  next rest hdecode =>
    have hwords := decodeWords_ok hdecode
    have hk' : k < (fetchWords s.mem s.pc.toNat 4).length := by
      rw [hwords, List.length_append]
      omega
    have hword := getElem_fetchWords hk'
    simpa only [hwords, List.getElem_append_left hk] using hword

theorem pc_lt_of_fetch {s : State} {i : Instr} (h : fetch s = .ok i) : s.pc.toNat < 32768 := by
  have hlen := length_encode i
  exact (fetch_ok_iff.1 h 0 (by omega)).1

theorem fetch_of_ge_opcode {s : State} (hpc : s.pc.toNat < 32768) (hop : 22 ≤ (readWord s.mem s.pc.toNat).toNat) :
    fetch s = .error .unknownOpcode := by
  simp only [fetch, fetchWords_of_lt hpc, decodeWords_of_ge hop]

/-- Memory ends before the instruction does: fewer operand words can be fetched than its arity asks for. -/
theorem fetch_of_past_memory {s : State} {n : Nat} (hpc : s.pc.toNat < 32768)
    (hn : arity (readWord s.mem s.pc.toNat) = some n) (hend : 32768 ≤ s.pc.toNat + n) : fetch s = .error .outOfBounds := by
  have hshort : (fetchWords s.mem (s.pc.toNat + 1) 3).length < n := by
    rw [length_fetchWords]
    omega
  simp only [fetch, fetchWords_of_lt hpc, decodeWords_of_lt_arity hn hshort]

/-! ### The step -/

theorem raise_eq_faultedWith (c : Cause) (s : State) : raise c s = faultedWith c s := rfl

theorem step_of_held {s : State} (h : s.loadError ≠ .none) : step s = .refused (.heldInReset s.loadError) := by
  unfold step
  split
  · next hl => rw [hl]
  · next hl => rw [hl]
  · next hl => exact absurd hl h

theorem step_of_stopped {s : State} (hl : s.loadError = .none) (h : s.status = .halted ∨ s.status = .faulted) :
    step s = .next s := by
  obtain h | h := h <;> simp only [step, hl, h]

theorem step_of_pc_ge {s : State} (h : Running s) (hpc : 32768 ≤ s.pc.toNat) : step s = .next (haltCore s) := by
  have hend : atEndOfMemory s = true := decide_eq_true hpc
  simp only [step, h.1, h.2, hend, if_true]

theorem step_of_fetch_error {s : State} {c : Cause} (h : Running s) (hpc : s.pc.toNat < 32768) (hf : fetch s = .error c) :
    step s = .next (faultedWith c s) := by
  have hend : ¬ atEndOfMemory s = true := by simpa [atEndOfMemory] using hpc
  simp only [step, h.1, h.2, if_neg hend, hf, conclude_error, raise_eq_faultedWith]

theorem step_of_codeAt {s : State} {i : Instr} (h : Running s) (hcode : CodeAt s (encode i)) : step s = exec i s :=
  have hf := fetch_ok_iff.2 hcode
  step_of_fetch h.1 h.2 (pc_lt_of_fetch hf) hf

end Sys2Proof.Machine
end

section
/-! The statements about the step and its decoding (30_encoding.md R87 to R90; 10_state.md R33; 60_exceptions.md R226). -/

namespace Sys2Proof.Proofs

open Sys2Proof.Machine

/-- Settles O9: words that stand at `pc` are what decoding finds there. -/
theorem stepExecutesTheInstructionAtPc : Obligations.StepExecutesTheInstructionAtPc :=
  fun _ _ => step_of_codeAt

/-- Settles O10: nothing is decoded past the end of memory. -/
theorem endOfMemoryHaltsAndKeepsPc : Obligations.EndOfMemoryHaltsAndKeepsPc :=
  fun _ => step_of_pc_ge

/-- Settles O11: the decoder knows no opcode from 22 on, and its fault is the step's. -/
theorem unknownOpcodeFaultsWithoutAdvancing : Obligations.UnknownOpcodeFaultsWithoutAdvancing :=
  fun _ h hpc hop => step_of_fetch_error h hpc (fetch_of_ge_opcode hpc hop)

/-- Settles O12: memory ends before the operand words do, and the decoder's fault is the step's. -/
theorem operandWordPastMemoryFaultsOutOfBounds : Obligations.OperandWordPastMemoryFaultsOutOfBounds :=
  fun _ _ h hpc hn hend => step_of_fetch_error h hpc (fetch_of_past_memory hpc hn hend)

/-- Settles O13: a step asks for the status before it decodes. -/
theorem stoppedBlockChangesNothing : Obligations.StoppedBlockChangesNothing :=
  fun _ => step_of_stopped

/-- Settles O14: a step asks for the load error before anything else. -/
theorem heldBlockTakesNoStep : Obligations.HeldBlockTakesNoStep :=
  fun _ => step_of_held

/-- Settles O15: a stopped block answers itself, and a Running one ends the run, executes or takes the decoder's fault. -/
theorem everyStepOfALoadedBlockAnswersAState : Obligations.EveryStepOfALoadedBlockAnswersAState := by
  intro s hl
  cases hs : s.status with
  | halted => exact ⟨s, step_of_stopped hl (.inl hs)⟩
  | faulted => exact ⟨s, step_of_stopped hl (.inr hs)⟩
  | running =>
    obtain hpc | hpc := Nat.lt_or_ge s.pc.toNat 32768
    · cases hf : fetch s with
      | ok i =>
        obtain ⟨t, ht⟩ := exec_answers i s
        exact ⟨t, (step_of_fetch hl hs hpc hf).trans ht⟩
      | error c => exact ⟨_, step_of_fetch_error ⟨hl, hs⟩ hpc hf⟩
    · exact ⟨_, step_of_pc_ge ⟨hl, hs⟩ hpc⟩

end Sys2Proof.Proofs
end

section
/-! What completing an instruction does to each part of the state, and what a fault of execution leaves: every statement about
all instructions is read off from these. -/

namespace Sys2Proof.Machine

open Sys2Proof.Claims

theorem worth_of_readOp {s : State} {w v : Word} (h : readOp w s = .ok v) : Worth s w v := by
  obtain ⟨hw, e⟩ | ⟨i, hw, e⟩ | ⟨-, e⟩ := readOp_cases w s <;> rw [e] at h <;> cases h
  · exact .inl ⟨hw, rfl⟩
  · exact .inr ⟨i, hw, rfl⟩

/-! ### Completion, field by field -/

/-- Only `halt`, and `ret` on an empty stack, change the status; they change nothing else but `pc` (R120, R155). -/
theorem Completes.status_cases {i : Instr} {s t : State} (h : Completes i s t) :
    t.status = s.status ∨ ((i = .halt ∨ (i = .ret ∧ s.stack = [])) ∧ t = haltCore (advance 0 s)) := by
  cases h with
  | halt => exact .inr ⟨.inl rfl, rfl⟩
  | retEmpty hs => exact .inr ⟨.inr ⟨rfl, hs⟩, rfl⟩
  | _ => exact .inl rfl

theorem Completes.status_ne_faulted {i : Instr} {s t : State} (h : Completes i s t) (hs : s.status ≠ .faulted) :
    t.status ≠ .faulted := by
  obtain hstatus | ⟨-, rfl⟩ := h.status_cases
  · rwa [hstatus]
  · rw [haltCore_status]
    decide

/-- Only an instruction with a destination operand writes a register, and it writes the one named (R22, R86). -/
theorem Completes.regs_cases {i : Instr} {s t : State} (h : Completes i s t) :
    t.regs = s.regs ∨ ∃ a d v, i.destination = some a ∧ destOp a = .ok d ∧ t.regs = s.regs.set d v := by
  cases h with
  | set hd | pop hd | eq hd | gt hd | add hd | mult hd | mod hd | and hd | or hd | not hd | rmem hd | inTake hd =>
    exact .inr ⟨_, _, _, rfl, hd, rfl⟩
  | _ => exact .inl rfl

/-- The stack is left alone, or takes one Word where there is room, or gives one Word up (R27, R29). -/
theorem Completes.stack_cases {i : Instr} {s t : State} (h : Completes i s t) :
    t.stack = s.stack ∨
      (((∃ a, i = .push a) ∨ ∃ a, i = .call a) ∧ Room s ∧ ∃ v, t.stack = v :: s.stack) ∨
      (((∃ a, i = .pop a) ∨ i = .ret) ∧ ∃ v, s.stack = v :: t.stack) := by
  cases h with
  | push _ room => exact .inr (.inl ⟨.inl ⟨_, rfl⟩, room, _, rfl⟩)
  | call _ room => exact .inr (.inl ⟨.inr ⟨_, rfl⟩, room, _, rfl⟩)
  | pop _ hs => exact .inr (.inr ⟨.inl ⟨_, rfl⟩, _, hs⟩)
  | ret hs => exact .inr (.inr ⟨.inr rfl, _, hs⟩)
  | _ => exact .inl rfl

/-- Only `wmem` writes memory (R67). -/
theorem Completes.mem_cases {i : Instr} {s t : State} (h : Completes i s t) :
    t.mem = s.mem ∨ ∃ a b addr v, i = .wmem a b ∧ readOp a s = .ok addr ∧ readOp b s = .ok v ∧ addr.toNat < 32768 ∧
      t.mem = writeWord addr.toNat v s.mem := by
  cases h with
  | wmem ha hb haddr => exact .inr ⟨_, _, _, _, rfl, ha, hb, haddr, rfl⟩
  | _ => exact .inl rfl

theorem Completes.pc_cases {i : Instr} {s t : State} (h : Completes i s t) :
    t.pc = nextPc i.operands.length s ∨ (∃ w, target i = some w ∧ readOp w s = .ok t.pc) ∨
      (i = .ret ∧ ∃ vs, s.stack = t.pc :: vs) ∨ ((∃ a, i = .inp a) ∧ t = s) := by
  cases h with
  | jmp ht | jtTaken _ _ ht | jfTaken _ _ ht | call ht => exact .inr (.inl ⟨_, rfl, ht⟩)
  | ret hs => exact .inr (.inr (.inl ⟨rfl, _, hs⟩))
  | inWait => exact .inr (.inr (.inr ⟨⟨_, rfl⟩, rfl⟩))
  | _ => exact .inl rfl

theorem Completes.outq_cases {i : Instr} {s t : State} (h : Completes i s t) :
    t.outq = s.outq ∨ ∃ a v, i = .out a ∧ readOp a s = .ok v ∧ t.outq = s.outq ++ [v] := by
  cases h with
  | out ha => exact .inr ⟨_, _, rfl, ha, rfl⟩
  | _ => exact .inl rfl

theorem Completes.inq_cases {i : Instr} {s t : State} (h : Completes i s t) :
    t.inq = s.inq ∨ ∃ a c, i = .inp a ∧ s.inq = c :: t.inq := by
  cases h with
  | inTake _ hq => exact .inr ⟨_, _, rfl, hq⟩
  | _ => exact .inl rfl

theorem Completes.inEof {i : Instr} {s t : State} (h : Completes i s t) : t.inEof = s.inEof := by
  cases h <;> rfl

theorem Completes.loadError {i : Instr} {s t : State} (h : Completes i s t) : t.loadError = s.loadError := by
  cases h <;> rfl

theorem Completes.stackLimit {i : Instr} {s t : State} (h : Completes i s t) : t.stackLimit = s.stackLimit := by
  cases h <;> rfl

theorem Completes.notBit15 {i : Instr} {s t : State} (h : Completes i s t) : t.notBit15 = s.notBit15 := by
  cases h <;> rfl

/-- The fault record is written by a fault only (R213). -/
theorem Completes.record {i : Instr} {s t : State} (h : Completes i s t) :
    t.faultCause = s.faultCause ∧ t.faultPc = s.faultPc ∧ t.faultOp = s.faultOp := by
  cases h <;> exact ⟨rfl, rfl, rfl⟩

/-! ### Faults -/

/-- An instruction that leads to a Faulted state has raised one of its causes. -/
theorem exec_faulted {i : Instr} {s t : State} (hs : s.status ≠ .faulted) (h : exec i s = .next t)
    (ht : t.status = .faulted) : ∃ c ∈ raisable i, t = raise c s := by
  obtain hdone | hfault := exec_next h
  · exact absurd ht (hdone.status_ne_faulted hs)
  · exact hfault

/-- An instruction that leads to a state that is not Faulted has completed. -/
theorem exec_not_faulted {i : Instr} {s t : State} (h : exec i s = .next t) (ht : t.status ≠ .faulted) : Completes i s t := by
  obtain hdone | ⟨c, -, rfl⟩ := exec_next h
  · exact hdone
  · exact absurd (raise_status c s) ht

/-- What the model's table lists is what R212 lists. -/
theorem raisable_subset_mayRaise (i : Instr) : raisable i ⊆ mayRaise i := by
  cases i <;> simp [raisable, mayRaise]

/-- `none` is no cause of a fault: it is the record of a block that has not faulted (R211). -/
theorem ne_none_of_mem_raisable {i : Instr} {c : Cause} (h : c ∈ raisable i) : c ≠ .none := by
  rintro rfl
  cases i <;> simp [raisable] at h

theorem ne_none_of_fetch_error {s : State} {c : Cause} (h : fetch s = .error c) : c ≠ .none := by
  obtain rfl | rfl := fetch_error h <;> decide

end Sys2Proof.Machine
end

section
/-! The statements about every instruction: what it may raise, and which parts of the state it reaches (60_exceptions.md R212;
10_state.md R22, R29, R34, R35; 44_control_flow.md R150). -/

namespace Sys2Proof.Proofs

open Sys2Proof.Machine

/-- Settles O17: an instruction that faults has raised one of its own causes, and they are all listed. -/
theorem instructionsRaiseOnlyTheirListedCauses : Obligations.InstructionsRaiseOnlyTheirListedCauses := by
  intro i s t hs h ht
  obtain ⟨c, hc, rfl⟩ := exec_faulted hs h ht
  exact raisable_subset_mayRaise i hc

/-- Settles O20: completing pushes or pops at most once, and a fault leaves the stack. -/
theorem onlyFourInstructionsReachTheStack : Obligations.OnlyFourInstructionsReachTheStack := by
  intro i s t h
  obtain hdone | ⟨c, -, rfl⟩ := exec_next h
  · obtain hsame | ⟨hi, -, hpush⟩ | hpop := hdone.stack_cases
    · exact .inl hsame
    · exact .inr (.inl ⟨hi, hpush⟩)
    · exact .inr (.inr hpop)
  · exact .inl (raise_stack c s)

/-- Settles O21: a register other than the one written reads as before. -/
theorem onlyTheNamedDestinationRegisterChanges : Obligations.OnlyTheNamedDestinationRegisterChanges := by
  intro i s t r h hr
  obtain hdone | ⟨c, -, rfl⟩ := exec_next h
  · obtain hsame | ⟨a, d, v, ha, hd, hregs⟩ := hdone.regs_cases
    · exact absurd (by rw [hsame]) hr
    · have hrd : r = d := by
        by_contra hne
        refine hr ?_
        rw [hregs]
        exact reg_setReg_other hne v s
      exact ⟨a, ha, hrd ▸ destOp_ok hd⟩
  · exact absurd (by rw [raise_regs]) hr

/-- Settles O22: completing moves the channels by `in` and `out` only, and a fault leaves them. -/
theorem channelsMoveOnlyByInAndOut : Obligations.ChannelsMoveOnlyByInAndOut := by
  intro i s t h
  obtain hdone | ⟨c, -, rfl⟩ := exec_next h
  · refine ⟨?_, hdone.inq_cases, hdone.inEof, hdone.loadError, hdone.stackLimit, hdone.notBit15⟩
    obtain hsame | ⟨a, v, hi, ha, hout⟩ := hdone.outq_cases
    · exact .inl hsame
    · exact .inr ⟨a, v, hi, worth_of_readOp ha, hout⟩
  · exact ⟨.inl rfl, .inl rfl, rfl, rfl, rfl, rfl⟩

/-- Settles O23: a state that is not Faulted is the one the instruction completes in. -/
theorem newPcIsNextTargetOrPoppedWord : Obligations.NewPcIsNextTargetOrPoppedWord := by
  intro i s t _ h ht
  obtain hnext | ⟨w, hw, hpc⟩ | hret | hwait := (exec_not_faulted h ht).pc_cases
  · exact .inl hnext
  · exact .inr (.inl ⟨w, hw, worth_of_readOp hpc⟩)
  · exact .inr (.inr (.inl hret))
  · exact .inr (.inr (.inr hwait))

end Sys2Proof.Proofs
end

section
/-! The statements about every step: what a fault, a normal end and a store change (60_exceptions.md R213, R219;
20_memory.md R67). -/

namespace Sys2Proof.Proofs

open Sys2Proof.Machine

/-- Settles O16: a fault is taken in the state before the step, whether the decoder or the instruction raised it. -/
theorem aFaultChangesOnlyStatusAndRecord : Obligations.AFaultChangesOnlyStatusAndRecord := by
  intro s t ⟨_, hrun⟩ h ht
  obtain ⟨-, ⟨hstop, -⟩ | ⟨-, -, rfl⟩ | ⟨-, -, i, -, hexec⟩ | ⟨-, -, c, -, rfl⟩⟩ := step_next h
  · exact absurd hrun hstop
  · rw [haltCore_status] at ht
    cases ht
  · obtain ⟨c, -, rfl⟩ := exec_faulted (by simp [hrun]) hexec ht
    rw [raise_faultCause, raise_eq_faultedWith]
  · rw [raise_faultCause, raise_eq_faultedWith]

/-- Settles O18: of the instructions only `halt` and `ret` end the run, and their opcode word is what stood at `pc`. -/
theorem onlyThreeEventsEndARunNormally : Obligations.OnlyThreeEventsEndARunNormally := by
  intro s t ⟨_, hrun⟩ h ht
  obtain ⟨-, ⟨hstop, -⟩ | ⟨-, hpc, rfl⟩ | ⟨-, -, i, hfetch, hexec⟩ | ⟨-, -, c, -, rfl⟩⟩ := step_next h
  · exact absurd hrun hstop
  · exact .inl ⟨hpc, rfl⟩
  · obtain hsame | ⟨hi, rfl⟩ := (exec_not_faulted hexec (by simp [ht])).status_cases
    · rw [hsame, hrun] at ht
      cases ht
    · refine .inr ⟨?_, rfl⟩
      obtain rfl | ⟨rfl, hs⟩ := hi
      · exact .inl (fetch_ok_iff.1 hfetch 0 (by decide)).2
      · exact .inr ⟨(fetch_ok_iff.1 hfetch 0 (by decide)).2, hs⟩
  · rw [raise_status] at ht
    cases ht

/-- Settles O19: only a `wmem` that completes writes memory, and its words are what was decoded at `pc`. -/
theorem memoryChangesOnlyThroughWmem : Obligations.MemoryChangesOnlyThroughWmem := by
  intro s t hwf h
  obtain ⟨-, ⟨-, rfl⟩ | ⟨-, -, rfl⟩ | ⟨-, -, i, hfetch, hexec⟩ | ⟨-, -, c, -, rfl⟩⟩ := step_next h
  · exact .inl rfl
  · exact .inl rfl
  · obtain hdone | ⟨c, -, rfl⟩ := exec_next hexec
    · obtain hsame | ⟨a, b, addr, v, rfl, ha, hb, haddr, hmem⟩ := hdone.mem_cases
      · exact .inl hsame
      · rw [hmem]
        exact .inr ⟨a, b, addr, v, fetch_ok_iff.1 hfetch, worth_of_readOp ha, worth_of_readOp hb, haddr,
          readWord_writeWord_same v hwf haddr, fun _ hlow hhigh => readByte_writeWord_other v hwf haddr hlow hhigh⟩
    · exact .inl rfl
  · exact .inl rfl

end Sys2Proof.Proofs
end

section
/-! The invariant of the block, kept by everything a step can end in and by the host's moves (10_state.md R28, R32;
60_exceptions.md R213, R218). -/

namespace Sys2Proof.Machine

open Sys2Proof.Safety

theorem invariant_reset : Invariant State.reset where
  memWf := wf_reset
  stackBounded _ _ := Nat.zero_le _
  recordClear _ := ⟨rfl, rfl, rfl⟩
  recordValid h := by cases h

theorem invariant_haltCore {s : State} (h : Invariant s) (hs : s.status ≠ .faulted) : Invariant (haltCore s) where
  memWf := h.memWf
  stackBounded := h.stackBounded
  recordClear _ := h.recordClear hs
  recordValid ht := by cases ht

/-- A fault's record tells of the instruction at `pc`, which was in memory (R213). -/
theorem invariant_raise {s : State} {c : Cause} (h : Invariant s) (hc : c ≠ .none) (hpc : s.pc.toNat < 32768) :
    Invariant (raise c s) where
  memWf := h.memWf
  stackBounded := h.stackBounded
  recordClear ht := absurd (raise_status c s) ht
  recordValid _ := ⟨hc, rfl, hpc, rfl⟩

/-- Only `wmem` writes memory, and a Word written keeps the canonical form. -/
theorem Completes.memWf {i : Instr} {s t : State} (h : Completes i s t) (hwf : s.mem.wf = true) : t.mem.wf = true := by
  obtain hsame | ⟨-, -, addr, v, -, -, -, haddr, hmem⟩ := h.mem_cases
  · rwa [hsame]
  · rw [hmem]
    exact wf_writeWord v hwf haddr

/-- A push happens only below the limit, so one more Word stays within it (R27, R28). -/
theorem Completes.stackBounded {i : Instr} {s t : State} (h : Completes i s t)
    (hbound : ∀ l : ℕ+, s.stackLimit = some l → s.stack.length ≤ l) :
    ∀ l : ℕ+, t.stackLimit = some l → t.stack.length ≤ l := by
  intro l hl
  rw [h.stackLimit] at hl
  have hle := hbound l hl
  obtain hsame | ⟨-, hroom, v, hpush⟩ | ⟨-, v, hpop⟩ := h.stack_cases
  · rwa [hsame]
  · rw [hpush, List.length_cons]
    exact Nat.lt_of_le_of_ne hle (hroom l hl)
  · rw [hpop, List.length_cons] at hle
    exact Nat.le_of_succ_le hle

theorem Completes.invariant {i : Instr} {s t : State} (h : Completes i s t) (hI : Invariant s) (hs : s.status ≠ .faulted) :
    Invariant t where
  memWf := h.memWf hI.memWf
  stackBounded := h.stackBounded hI.stackBounded
  recordClear _ := by
    obtain ⟨hcause, hpc, hop⟩ := h.record
    rw [hcause, hpc, hop]
    exact hI.recordClear hs
  recordValid ht := absurd ht (h.status_ne_faulted hs)

theorem step_invariant {s t : State} (hI : Invariant s) (h : step s = .next t) : Invariant t := by
  obtain ⟨-, ⟨-, rfl⟩ | ⟨hrun, -, rfl⟩ | ⟨hrun, hpc, i, -, hexec⟩ | ⟨-, hpc, c, hfetch, rfl⟩⟩ := step_next h
  · exact hI
  · exact invariant_haltCore hI (by simp [hrun])
  · obtain hdone | ⟨c, hc, rfl⟩ := exec_next hexec
    · exact hdone.invariant hI (by simp [hrun])
    · exact invariant_raise hI (ne_none_of_mem_raisable hc) hpc
  · exact invariant_raise hI (ne_none_of_fetch_error hfetch) hpc

/-- The invariant does not speak of the input channel. -/
theorem invariant_of_input {s : State} (h : Invariant s) (inq : List Byte) (eof : Bool) :
    Invariant { s with inq := inq, inEof := eof } :=
  ⟨h.memWf, h.stackBounded, h.recordClear, h.recordValid⟩

theorem supply_invariant {s : State} (h : Invariant s) (codes : List Byte) : Invariant (supply codes s) := by
  unfold supply
  split
  · exact h
  · exact invariant_of_input h (s.inq ++ codes) s.inEof

theorem invariant_freshState {m : Memory} (hm : m.wf = true) (inq : List Byte) (eof : Bool) (s : State) :
    Invariant (freshState m inq eof s) where
  memWf := hm
  stackBounded _ _ := Nat.zero_le _
  recordClear _ := ⟨rfl, rfl, rfl⟩
  recordValid h := by cases h

/-- A reset keeps nothing of the state before it (R244), so the invariant needs no premise but a loaded image. -/
theorem resetWith_invariant {image inq : List Byte} {eof : Bool} {s : State}
    (h : (resetWith image inq eof s).loadError = .none) : Invariant (resetWith image inq eof s) := by
  obtain ⟨m, hload, hfresh⟩ := resetWith_of_loadError_none h
  rw [hfresh]
  exact invariant_freshState (wf_load hload) inq eof s

end Sys2Proof.Machine
end

section
/-! The statements about the invariant (10_state.md R28, R32, R40; 60_exceptions.md R213, R218). -/

namespace Sys2Proof.Proofs

open Sys2Proof.Machine

/-- Settles O27: a step stays, ends the run, completes an instruction or takes a fault, and each keeps the invariant. -/
theorem everyStepKeepsTheInvariant : Obligations.EveryStepKeepsTheInvariant :=
  fun _ _ => step_invariant

/-- Settles O28: the reset values meet each clause, whatever the opaque parameters are. -/
theorem resetStateHasTheInvariant : Obligations.ResetStateHasTheInvariant :=
  invariant_reset

/-- Settles O29: event by event; a reset that loads needs nothing of the state before it. -/
theorem everyEventKeepsTheInvariant : Obligations.EveryEventKeepsTheInvariant := by
  intro e s t hI h hl
  cases e with
  | step => exact step_invariant hI h
  | supply codes =>
    cases h
    exact supply_invariant hI codes
  | closeInput =>
    cases h
    exact invariant_of_input hI s.inq true
  | reset image inq eof =>
    cases h
    exact resetWith_invariant hl

end Sys2Proof.Proofs
end

section
/-! What the remaining instructions do, by what their operands resolve to and by the stack and the queue they meet: `halt`, `pop`,
`call`, `ret`, `out`, `in` (41_machine_control.md R120, 42_data_and_stack.md R132, 44_control_flow.md R154, R155, 47_io.md R200,
R202). -/

namespace Sys2Proof.Machine

theorem exec_halt (s : State) : exec .halt s = .next (haltCore (advance 0 s)) := rfl

/-- The destination is resolved before the stack is looked at (R132). -/
theorem exec_pop_of_destOp_error {a : Word} {c : Cause} (ha : destOp a = .error c) (s : State) :
    exec (.pop a) s = conclude s (.error c) := by
  rw [exec, execPop, ha]
  rfl

theorem exec_pop_of_nil {a : Word} {d : Fin 8} {s : State} (ha : destOp a = .ok d) (hs : s.stack = []) :
    exec (.pop a) s = conclude s (.error .stackUnderflow) := by
  simp only [exec, execPop, popWord, ha, hs, bind, Except.bind]

theorem exec_pop_of_cons {a v : Word} {vs : List Word} {d : Fin 8} {s : State} (ha : destOp a = .ok d)
    (hs : s.stack = v :: vs) : exec (.pop a) s = .next (advance 1 (setReg d v { s with stack := vs })) := by
  simp only [exec, execPop, popWord, ha, hs, bind, Except.bind, pure, Except.pure, conclude_ok]

/-- The target is resolved before the push (R154). -/
theorem exec_call_of_readOp_error {a : Word} {s : State} {c : Cause} (ha : readOp a s = .error c) :
    exec (.call a) s = conclude s (.error c) := by
  rw [exec, execCall, ha]
  rfl

theorem exec_call_of_pushWord_error {a t : Word} {s : State} {c : Cause} (ha : readOp a s = .ok t)
    (hpush : pushWord (nextPc 1 s) s = .error c) : exec (.call a) s = conclude s (.error c) := by
  simp only [exec, execCall, ha, hpush, bind, Except.bind]

theorem exec_call_of_pushWord_ok {a t : Word} {s u : State} (ha : readOp a s = .ok t)
    (hpush : pushWord (nextPc 1 s) s = .ok u) : exec (.call a) s = .next (setPc t u) := by
  simp only [exec, execCall, ha, hpush, bind, Except.bind, pure, Except.pure, conclude_ok]

theorem exec_ret_of_nil {s : State} (hs : s.stack = []) : exec .ret s = .next (haltCore (advance 0 s)) := by
  simp only [exec, execRet, popWord, hs, conclude_ok]

theorem exec_ret_of_cons {s : State} {v : Word} {vs : List Word} (hs : s.stack = v :: vs) :
    exec .ret s = .next (setPc v { s with stack := vs }) := by
  simp only [exec, execRet, popWord, hs, conclude_ok]

theorem exec_out_of_readOp_error {a : Word} {s : State} {c : Cause} (ha : readOp a s = .error c) :
    exec (.out a) s = conclude s (.error c) := by
  rw [exec, execOut, ha]
  rfl

theorem exec_out_of_readOp_ok {a v : Word} {s : State} (ha : readOp a s = .ok v) :
    exec (.out a) s = .next (advance 1 (emit v s)) := by
  rw [exec, execOut, ha]
  rfl

/-- The destination is resolved before the queue is looked at (R202). -/
theorem exec_inp_of_destOp_error {a : Word} {c : Cause} (ha : destOp a = .error c) (s : State) :
    exec (.inp a) s = conclude s (.error c) := by
  rw [exec, execIn, ha]
  rfl

theorem exec_inp_of_cons {a : Word} {ch : Byte} {rest : List Byte} {d : Fin 8} {s : State} (ha : destOp a = .ok d)
    (hq : s.inq = ch :: rest) :
    exec (.inp a) s = .next (advance 1 (setReg d (ch.zeroExtend 16) { s with inq := rest })) := by
  simp only [exec, execIn, ha, hq, bind, Except.bind, pure, Except.pure, conclude_ok]

theorem exec_inp_of_ended {a : Word} {d : Fin 8} {s : State} (ha : destOp a = .ok d) (hq : s.inq = [])
    (he : s.inEof = true) : exec (.inp a) s = conclude s (.error .inputEnd) := by
  simp only [exec, execIn, ha, hq, he, bind, Except.bind, if_true]

/-- The wait: the step is not taken (R203, log 3). -/
theorem exec_inp_of_waiting {a : Word} {d : Fin 8} {s : State} (ha : destOp a = .ok d) (hq : s.inq = [])
    (he : s.inEof = false) : exec (.inp a) s = .next s := by
  simp only [exec, execIn, ha, hq, he, bind, Except.bind, pure, Except.pure, Bool.false_eq_true, if_false, conclude_ok]

/-- A code of 8 bits keeps its number as a Word (R202). -/
theorem toNat_zeroExtend_code (ch : Byte) : (ch.zeroExtend 16).toNat = ch.toNat :=
  BitVec.toNat_setWidth_of_le (by decide)

end Sys2Proof.Machine
end

section
/-! The statements about `halt`, `pop`, `call`, `ret`, `out` and `in` (41_machine_control.md, 42_data_and_stack.md,
44_control_flow.md, 47_io.md). -/

namespace Sys2Proof.Proofs

open Sys2Proof.Machine

/-- Settles O33: `halt` falls through and then ends the run. -/
theorem haltEndsTheRunNormally : Obligations.HaltEndsTheRunNormally := by
  intro s
  rw [exec_halt, advance_zero, haltCore]

/-- Settles O37: `pop` resolves its destination and then asks whether the stack has a top. -/
theorem popTakesTheTopOrUnderflows : Obligations.PopTakesTheTopOrUnderflows := by
  intro s a
  refine ⟨fun d v vs ha hs => ?completes, fun ha => ?noDestination, fun d ha hs => ?empty⟩
  case completes => rw [exec_pop_of_cons (destOp_reg ha) hs, advance_one, setReg]
  case noDestination =>
    rw [exec_pop_of_destOp_error (destOp_of_namesNone ha)]
    exact faults_conclude_error _ s
  case empty => rw [exec_pop_of_nil (destOp_reg ha) hs, conclude_error, raise_eq_faultedWith]

/-- Settles O44: the target is resolved before the push, and the push is of `next`. -/
theorem callPushesNextAndJumps : Obligations.CallPushesNextAndJumps := by
  intro s a
  refine ⟨fun t ha hroom => ?completes, fun ha => ?noTarget, fun t ha hfull => ?noRoom⟩
  case completes =>
    rw [exec_call_of_pushWord_ok (readOp_of_worth ha) (pushWord_of_room hroom _)]
    rfl
  case noTarget => rw [exec_call_of_readOp_error (readOp_of_worthless ha s), conclude_error, raise_eq_faultedWith]
  case noRoom =>
    rw [exec_call_of_pushWord_error (readOp_of_worth ha) (pushWord_of_full hfull _), conclude_error, raise_eq_faultedWith]

/-- Settles O45: `ret` asks whether the stack has a top, and without one it ends as `halt` does. -/
theorem retGoesToThePoppedWordOrHalts : Obligations.RetGoesToThePoppedWordOrHalts := by
  intro s
  refine ⟨fun v vs hs => ?popped, fun hs => ⟨?ends, ?asHalt⟩⟩
  case popped => rw [exec_ret_of_cons hs, setPc]
  case ends => rw [exec_ret_of_nil hs, advance_zero, haltCore]
  case asHalt => rw [exec_ret_of_nil hs, exec_halt]

/-- Settles O46: the Word that `ret` pops is the `next` that `call` pushed, and the stack under it is the one before. -/
theorem retAfterCallReturnsPastTheCall : Obligations.RetAfterCallReturnsPastTheCall := by
  intro s a t ha hroom
  exact ⟨_, exec_call_of_pushWord_ok (readOp_of_worth ha) (pushWord_of_room hroom _), setPc_pc t _,
    exec_ret_of_cons (v := nextPc 1 s) (vs := s.stack) rfl⟩

/-- Settles O56: `out` resolves its operand and appends what it is worth. -/
theorem outAppendsTheWholeWord : Obligations.OutAppendsTheWholeWord := by
  intro s a
  refine ⟨fun v ha => ?completes, fun ha => ?noValue⟩
  case completes => rw [exec_out_of_readOp_ok (readOp_of_worth ha), advance_one, emit]
  case noValue =>
    rw [exec_out_of_readOp_error (readOp_of_worthless ha s)]
    exact faults_conclude_error _ s

/-- Settles O57: `in` resolves its destination, then asks for a code, and with none for the end of input. -/
theorem inTakesOneCodeWaitsOrFaults : Obligations.InTakesOneCodeWaitsOrFaults := by
  intro s a
  refine ⟨fun d ch rest ha hq => ⟨ch.zeroExtend 16, toNat_zeroExtend_code ch, ?takes⟩, fun d ha hq he => ?ended,
    fun d ha hq he => exec_inp_of_waiting (destOp_reg ha) hq he, fun ha => ?noDestination⟩
  case takes => rw [exec_inp_of_cons (destOp_reg ha) hq, advance_one, setReg]
  case ended => rw [exec_inp_of_ended (destOp_reg ha) hq he, conclude_error, raise_eq_faultedWith]
  case noDestination =>
    rw [exec_inp_of_destOp_error (destOp_of_namesNone ha)]
    exact faults_conclude_error _ s

end Sys2Proof.Proofs
end

section
/-! What `mod` and `not` compute, as numbers (45_alu.md R173, R176). -/

namespace Sys2Proof.Machine

theorem exec_mod (a b c : Word) (s : State) : exec (.mod a b c) s = conclude s (binaryOp aluMod a b c s) := rfl

theorem exec_not (a b : Word) (s : State) :
    exec (.not a b) s = conclude s (unaryOp (fun vb => .ok (aluNot s.notBit15 vb)) a b s) := rfl

theorem binaryOp_of_function_error {f : Word → Word → Except Cause Word} {a b c vb vc : Word} {d : Fin 8} {s : State}
    {e : Cause} (ha : destOp a = .ok d) (hb : readOp b s = .ok vb) (hc : readOp c s = .ok vc) (hf : f vb vc = .error e) :
    binaryOp f a b c s = .error e := by
  simp only [binaryOp, ha, hb, hc, hf, bind, Except.bind]

theorem aluMod_of_ne_zero {vc : Word} (h : vc ≠ 0) (vb : Word) : aluMod vb vc = .ok (BitVec.ofNat 16 (vb.toNat % vc.toNat)) :=
  if_neg fun hzero => h (BitVec.eq_of_toNat_eq hzero)

theorem aluMod_zero (vb : Word) : aluMod vb 0 = .error .divideByZero := rfl

/-! ### The 15-bit inversion -/

/-- Inverting the 15 bits of a number below 32768 is subtracting it from 32767. -/
theorem xor_low_bits_of_lt {n : Nat} (h : n < 2 ^ 15) : n ^^^ 32767 = 32767 - n := by
  have hones : 32767 = 2 ^ 15 - 1 := rfl
  have hsub : 32767 - n = 2 ^ 15 - (n + 1) := by omega
  refine Nat.eq_of_testBit_eq fun i => ?_
  rw [hsub, Nat.testBit_two_pow_sub_succ h, Nat.testBit_xor, hones, Nat.testBit_two_pow_sub_one]
  by_cases hi : i < 15
  · simp [hi]
  · have hhigh : n < 2 ^ i := h.trans_le (Nat.pow_le_pow_right (by decide) (Nat.le_of_not_lt hi))
    simp [hi, Nat.testBit_lt_two_pow hhigh]

/-- Bits 14 to 0 are inverted, whatever bit 15 is. -/
theorem toNat_xor_low_bits_mod (v : Word) : (v ^^^ 0x7FFF).toNat % 32768 = 32767 - v.toNat % 32768 := by
  rw [BitVec.toNat_xor, show 32768 = 2 ^ 15 from rfl, Nat.xor_mod_two_pow]
  exact xor_low_bits_of_lt (Nat.mod_lt _ (by decide))

/-- Bit 15 passes through. -/
theorem toNat_xor_low_bits_div (v : Word) : (v ^^^ 0x7FFF).toNat / 32768 = v.toNat / 32768 := by
  rw [BitVec.toNat_xor, show 32768 = 2 ^ 15 from rfl, Nat.xor_div_two_pow]
  exact Nat.xor_zero _

theorem toNat_and_low_bits (v : Word) : (v &&& 0x7FFF).toNat = v.toNat % 32768 := by
  rw [BitVec.toNat_and]
  exact Nat.and_two_pow_sub_one_eq_mod v.toNat 15

theorem aluNot_of_lt {v : Word} (h : v.toNat < 32768) (mode : NotBit15) : aluNot mode v = v ^^^ 0x7FFF := by
  have hmsb : v.msb = false := BitVec.msb_eq_false_iff_two_mul_lt.2 (by omega)
  simp only [aluNot, hmsb, Bool.false_eq_true, if_false]

theorem aluNot_keep (v : Word) : aluNot .keep v = v ^^^ 0x7FFF := by
  simp only [aluNot, ite_self]

theorem aluNot_clear_of_ge {v : Word} (h : 32768 ≤ v.toNat) : aluNot .clear v = (v ^^^ 0x7FFF) &&& 0x7FFF := by
  have hmsb : v.msb = true := BitVec.msb_eq_true_iff_two_mul_ge.2 (by omega)
  simp only [aluNot, hmsb, if_true]

theorem toNat_aluNot_of_lt {v : Word} (h : v.toNat < 32768) (mode : NotBit15) : (aluNot mode v).toNat = 32767 - v.toNat := by
  have hlow := toNat_xor_low_bits_mod v
  have hhigh := toNat_xor_low_bits_div v
  rw [aluNot_of_lt h]
  omega

theorem toNat_aluNot_keep_of_ge {v : Word} (h : 32768 ≤ v.toNat) :
    (aluNot .keep v).toNat = 32768 + (65535 - v.toNat) := by
  have hlow := toNat_xor_low_bits_mod v
  have hhigh := toNat_xor_low_bits_div v
  have hv := v.isLt
  rw [aluNot_keep]
  omega

theorem toNat_aluNot_clear_of_ge {v : Word} (h : 32768 ≤ v.toNat) : (aluNot .clear v).toNat = 65535 - v.toNat := by
  have hlow := toNat_xor_low_bits_mod v
  have hv := v.isLt
  rw [aluNot_clear_of_ge h, toNat_and_low_bits]
  omega

theorem xor_low_bits_twice (v : Word) : v ^^^ 0x7FFF ^^^ 0x7FFF = v := by
  rw [BitVec.xor_assoc, BitVec.xor_self, BitVec.xor_zero]

/-- The inversion undoes itself wherever bit 15 is not cleared by it (R176). -/
theorem aluNot_aluNot {v : Word} {mode : NotBit15} (h : v.toNat < 32768 ∨ mode = .keep) :
    aluNot mode (aluNot mode v) = v := by
  obtain hlt | rfl := h
  · have hlt' : (aluNot mode v).toNat < 32768 := by
      rw [toNat_aluNot_of_lt hlt]
      omega
    rw [aluNot_of_lt hlt', aluNot_of_lt hlt, xor_low_bits_twice]
  · rw [aluNot_keep, aluNot_keep, xor_low_bits_twice]

theorem exec_not_of_worth {s : State} {a b vb : Word} {d : Fin 8} (ha : Claims.Names a d) (hb : Claims.Worth s b vb) :
    exec (.not a b) s = .next (advance 2 (setReg d (aluNot s.notBit15 vb) s)) := by
  have hop : unaryOp (fun vb => .ok (aluNot s.notBit15 vb)) a b s = .ok (advance 2 (setReg d (aluNot s.notBit15 vb) s)) :=
    unaryOp_ok.2 ⟨d, vb, _, destOp_reg ha, readOp_of_worth hb, rfl, rfl⟩
  rw [exec_not, hop, conclude_ok]

end Sys2Proof.Machine
end

section
/-! The statements about `mod` and `not` (45_alu.md). -/

namespace Sys2Proof.Proofs

open Sys2Proof.Machine

/-- Settles O49: `mod` has the shape D, V, V, and its function, which is asked last, fails on a zero divisor only. -/
theorem modWritesTheRemainderOrFaults : Obligations.ModWritesTheRemainderOrFaults := by
  intro s a b c
  rw [exec_mod]
  refine ⟨fun d vb vc ha hb hc hne => ?completes, fun d vb ha hb hc => ?zeroDivisor, fun ha => ?noDestination,
    fun d ha hb => ?noFirstValue, fun d vb ha hb hc => ?noSecondValue⟩
  case completes =>
    have hop := binaryOp_ok.2
      ⟨d, vb, vc, _, destOp_reg ha, readOp_of_worth hb, readOp_of_worth hc, aluMod_of_ne_zero hne vb, rfl⟩
    rw [hop, conclude_ok, advance_three, setReg]
  case zeroDivisor =>
    rw [binaryOp_of_function_error (destOp_reg ha) (readOp_of_worth hb) (readOp_of_worth hc) (aluMod_zero vb), conclude_error,
      raise_eq_faultedWith]
  case noDestination =>
    rw [binaryOp_of_destOp_error (destOp_of_namesNone ha)]
    exact faults_conclude_error _ s
  case noFirstValue =>
    rw [binaryOp_of_readOp_first_error (destOp_reg ha) (readOp_of_worthless hb s)]
    exact faults_conclude_error _ s
  case noSecondValue =>
    rw [binaryOp_of_readOp_second_error (destOp_reg ha) (readOp_of_worth hb) (readOp_of_worthless hc s)]
    exact faults_conclude_error _ s

/-- Settles O52: `not` has the shape D, V, and the Word it writes is known by its number in each of the three cases. -/
theorem notInvertsFifteenBits : Obligations.NotInvertsFifteenBits := by
  intro s a b
  refine ⟨fun d vb ha hb => ⟨aluNot s.notBit15 vb, ?completes, fun hlt => toNat_aluNot_of_lt hlt _, fun hge hmode => ?keep,
    fun hge hmode => ?clear⟩, fun ha => ?noDestination, fun d ha hb => ?noValue⟩
  case completes => rw [exec_not_of_worth ha hb, advance_two, setReg]
  case keep => rw [hmode, toNat_aluNot_keep_of_ge hge]
  case clear => rw [hmode, toNat_aluNot_clear_of_ge hge]
  case noDestination =>
    rw [exec_not, unaryOp_of_destOp_error (destOp_of_namesNone ha)]
    exact faults_conclude_error _ s
  case noValue =>
    rw [exec_not, unaryOp_of_readOp_error (destOp_reg ha) (readOp_of_worthless hb s)]
    exact faults_conclude_error _ s

/-- Settles O53: the second `not` reads what the first wrote, and writes back the Word that was there. -/
theorem notTwiceGivesTheWordBack : Obligations.NotTwiceGivesTheWordBack := by
  intro s a d ha h
  have hback : aluNot s.notBit15 (aluNot s.notBit15 s.regs[d.val]) = s.regs[d.val] := aluNot_aluNot h
  refine ⟨_, exec_not_of_worth ha (.inr ⟨d, ha, rfl⟩), ?_⟩
  rw [exec_not_of_worth ha (.inr ⟨d, ha, rfl⟩), advance_two, advance_two]
  simp [setReg, hback]

end Sys2Proof.Proofs
end

section
/-! The statements about two steps in a row: a jump past the end of memory, and a store over the next opcode word
(44_control_flow.md R156; 20_memory.md R62). -/

namespace Sys2Proof.Proofs

open Sys2Proof.Machine Sys2Proof.Claims

/-- Settles O24: the jump does not look at its target, and the next step finds `pc` past the end of memory. -/
theorem jumpPastMemoryEndsTheRunAtTheNextStep : Obligations.JumpPastMemoryEndsTheRunAtTheNextStep := by
  intro s a r hrun hcode ha hge
  refine ⟨?jump, step_of_pc_ge hrun hge⟩
  have hstep : step s = exec (.jmp a) s := step_of_codeAt hrun hcode
  rw [hstep, exec_jmp_of_readOp_ok (readOp_reg ha s), setPc]

/-- Settles O25: after the store `pc` is at the Word stored, which is the whole of `i`, so the next step decodes `i`. -/
theorem aStoreIsSeenByTheNextFetch : Obligations.AStoreIsSeenByTheNextFetch := by
  intro s a b addr v i hrun hwf hcode ha hb hnext haddr hi
  have hstep : step s = exec (.wmem a b) s := step_of_codeAt hrun hcode
  have hpc : s.pc + 3 = addr := by bv_omega
  refine ⟨_, hstep.trans (exec_wmem_of_memWrite_ok (readOp_of_worth ha) (readOp_of_worth hb) (memWrite_of_lt v s haddr)),
    hpc, step_of_codeAt hrun fun k hk => ?_⟩
  have hk0 : k = 0 := by
    rw [hi, List.length_singleton] at hk
    omega
  subst hk0
  simp only [hi, advance_two, hpc, Nat.add_zero, List.getElem_cons_zero]
  exact ⟨haddr, readWord_writeWord_same v hwf haddr⟩

end Sys2Proof.Proofs
end

section
/-! What the ports show: the codes, and when `wait_in` is 1 (10_state.md R31, R39, R41). -/

namespace Sys2Proof.Machine

open Sys2Proof.Claims

theorem namesRegister_iff (w : Word) : namesRegister w = true ↔ ∃ d : Fin 8, Names w d := by
  constructor
  · intro h
    obtain ⟨d, hd, -⟩ | ⟨hlit | hinv, -⟩ := destOp_cases w
    · exact ⟨d, hd⟩
    · simp [namesRegister, classify_lit (Nat.le_of_lt_succ hlit)] at h
    · simp [namesRegister, classify_inv hinv] at h
  · rintro ⟨d, hd⟩
    simp only [namesRegister, classify_reg hd]

theorem inAtPc_iff (s : State) : inAtPc s = true ↔ ∃ (a : Word) (d : Fin 8), fetch s = .ok (.inp a) ∧ Names a d := by
  constructor
  · intro h
    unfold inAtPc at h
    split at h
    · next a hf =>
      obtain ⟨d, hd⟩ := (namesRegister_iff a).1 h
      exact ⟨a, d, hf, hd⟩
    · cases h
  · rintro ⟨a, d, hf, hd⟩
    simp only [inAtPc, hf]
    exact (namesRegister_iff a).2 ⟨d, hd⟩

/-- What is decoded at `pc` stands in memory, so the end of memory needs no clause of its own. -/
theorem waitIn_iff (s : State) :
    waitIn s = true ↔
      Running s ∧ s.inq = [] ∧ s.inEof = false ∧ ∃ (a : Word) (d : Fin 8), CodeAt s [20, a] ∧ Names a d := by
  have hin : inAtPc s = true ↔ ∃ (a : Word) (d : Fin 8), CodeAt s [20, a] ∧ Names a d := by
    simp only [inAtPc_iff, fetch_ok_iff, encode]
  have hpc : inAtPc s = true → s.pc.toNat < 32768 := by
    rw [inAtPc_iff]
    exact fun ⟨_, _, hf, _⟩ => pc_lt_of_fetch hf
  rw [← hin]
  simp only [waitIn, atEndOfMemory, Bool.and_eq_true, Bool.not_eq_true', beq_iff_eq, decide_eq_false_iff_not, Nat.not_le,
    List.isEmpty_iff]
  constructor
  · rintro ⟨⟨⟨⟨⟨hl, hs⟩, -⟩, hat⟩, hq⟩, he⟩
    exact ⟨⟨hl, hs⟩, hq, he, hat⟩
  · rintro ⟨⟨hl, hs⟩, hq, he, hat⟩
    exact ⟨⟨⟨⟨⟨hl, hs⟩, hpc hat⟩, hat⟩, hq⟩, he⟩

theorem supply_of_open {s : State} (h : s.inEof = false) (codes : List Byte) :
    supply codes s = { s with inq := s.inq ++ codes } := by
  simp only [supply, h, Bool.false_eq_true, if_false]

end Sys2Proof.Machine
end

section
/-! The statements about the wait and the ports (47_io.md R203; 10_state.md R31, R39, R41). -/

namespace Sys2Proof.Proofs

open Sys2Proof.Machine Sys2Proof.Claims

/-- Settles O58: neither of the host's moves touches `pc` or memory, so the same `in` is executed before and after it. -/
theorem aWaitIsLiftedByTheHostsTwoMoves : Obligations.AWaitIsLiftedByTheHostsTwoMoves := by
  intro s a d hrun hcode ha hq he
  have hstep : ∀ u : State, Running u → CodeAt u [20, a] → step u = exec (.inp a) u := fun _ => step_of_codeAt (i := .inp a)
  refine ⟨?waits, (waitIn_iff s).2 ⟨hrun, hq, he, a, d, hcode, ha⟩,
    fun ch rest => ⟨ch.zeroExtend 16, toNat_zeroExtend_code ch, ?supplied⟩, ?closed⟩
  case waits => rw [hstep s hrun hcode, exec_inp_of_waiting (destOp_reg ha) hq he]
  case supplied =>
    have hsupplied : supply (ch :: rest) s = { s with inq := ch :: rest } := by
      rw [supply_of_open he, hq, List.nil_append]
    rw [hsupplied, hstep { s with inq := ch :: rest } hrun hcode, exec_inp_of_cons (destOp_reg ha) rfl, advance_one, setReg]
  case closed =>
    rw [hstep (closeInput s) hrun hcode, exec_inp_of_ended (s := closeInput s) (destOp_reg ha) hq rfl, conclude_error,
      raise_eq_faultedWith]

/-- Settles O59: each code is read off its own table, and the rest are fields or the wait. -/
theorem outputPortsShowTheStateInItsCodes : Obligations.OutputPortsShowTheStateInItsCodes := by
  intro s
  refine ⟨?loadError, ?status, ?cause, rfl, rfl, waitIn_iff s⟩
  case loadError =>
    rw [outputs]
    cases s.loadError <;> rfl
  case status =>
    rw [outputs]
    cases s.status <;> rfl
  case cause =>
    rw [outputs]
    cases s.faultCause <;> rfl

end Sys2Proof.Proofs
end

section
/-! The statements about the loader (20_memory.md R64, R66; 70_reset_and_hazards.md R241). -/

namespace Sys2Proof.Machine

/-- The loader's memory holds the image's Words, little-endian, and zeros beyond it (R55, R64). -/
theorem readWord_bytesAt {image : List Byte} (h : image.length ≤ 65536) (a : Nat) :
    readWord (bytesAt 0 image) a = image.getD (2 * a + 1) 0 ++ image.getD (2 * a) 0 := by
  have hbyte : ∀ k, readByte (bytesAt 0 image) k = image.getD k 0 := fun k => by
    simpa only [Nat.zero_add] using readByte_bytesAt image 0 k (by omega)
  rw [readWord, hbyte, hbyte]

theorem load_of_too_large {image : List Byte} (h : 65536 < image.length) : load image = .error .imageTooLarge := if_pos h

theorem load_of_odd {image : List Byte} (h : image.length ≤ 65536) (hodd : image.length % 2 = 1) :
    load image = .error .imageOddLength := by
  rw [load, if_neg (Nat.not_lt.2 h), if_pos hodd]

theorem load_of_even {image : List Byte} (h : image.length ≤ 65536) (heven : image.length % 2 = 0) :
    load image = .ok (bytesAt 0 image) := by
  rw [load, if_neg (Nat.not_lt.2 h), if_neg (by omega)]

end Sys2Proof.Machine

namespace Sys2Proof.Proofs

open Sys2Proof.Machine

/-- Settles O31: the image loads, and the fresh state holds the reset values and the loader's memory. -/
theorem resetLoadsTheImageAndStartsAtZero : Obligations.ResetLoadsTheImageAndStartsAtZero := by
  intro image inq eof s hlen heven
  rw [resetWith_of_load_ok (load_of_even hlen heven)]
  exact ⟨rfl, rfl, rfl, rfl, rfl, rfl, rfl, rfl, rfl, rfl, rfl, fun a _ => readWord_bytesAt hlen a⟩

/-- Settles O32: the loader's error is the one reported, and a block held takes no step. -/
theorem unloadableImageLeavesTheBlockHeld : Obligations.UnloadableImageLeavesTheBlockHeld := by
  intro image inq eof s
  have htooLarge : 65536 < image.length → (resetWith image inq eof s).loadError = .imageTooLarge := fun h => by
    rw [resetWith_of_load_error (load_of_too_large h), heldState_loadError]
  have hodd : image.length ≤ 65536 → image.length % 2 = 1 →
      (resetWith image inq eof s).loadError = .imageOddLength := fun h hlen => by
    rw [resetWith_of_load_error (load_of_odd h hlen), heldState_loadError]
  refine ⟨fun h => ⟨htooLarge h, congrArg LoadError.code (htooLarge h)⟩,
    fun h hlen => ⟨hodd h hlen, congrArg LoadError.code (hodd h hlen)⟩, fun h t => ?held⟩
  case held =>
    have hheld : (resetWith image inq eof s).loadError ≠ .none := by
      obtain hlarge | hsmall := Nat.lt_or_ge 65536 image.length
      · simp [htooLarge hlarge]
      · simp [hodd hsmall (h.resolve_left (Nat.not_lt.2 hsmall))]
    simp [step_of_held hheld]

end Sys2Proof.Proofs
end

section
/-! Pushing and popping a sequence (10_state.md R27). -/

namespace Sys2Proof.Claims

open Sys2Proof.Machine

/-- Every push of the sequence finds room, for the last one does; the last Word pushed is on top. -/
theorem pushAll_of_fits {vs : List Word} {s : State}
    (h : ∀ l : ℕ+, s.stackLimit = some l → s.stack.length + vs.length ≤ l) :
    pushAll vs s = .ok { s with stack := vs.reverse ++ s.stack } := by
  induction vs generalizing s with
  | nil => rfl
  | cons v vs ih =>
    have hroom : Room s := fun l hl => by
      have := h l hl
      rw [List.length_cons] at this
      omega
    have hfits : ∀ l : ℕ+, s.stackLimit = some l → (v :: s.stack).length + vs.length ≤ l := fun l hl => by
      have := h l hl
      rw [List.length_cons] at this ⊢
      omega
    simp only [pushAll, pushWord_of_room hroom v]
    rw [ih hfits, List.reverse_cons, List.append_assoc, List.singleton_append]

theorem popMany_of_append (ws vs : List Word) (s : State) :
    popMany ws.length { s with stack := ws ++ vs } = some (ws, { s with stack := vs }) := by
  induction ws with
  | nil => rfl
  | cons w ws ih => simp only [List.length_cons, List.cons_append, popMany, popWord, ih, Option.map_some]

end Sys2Proof.Claims

namespace Sys2Proof.Proofs

open Sys2Proof.Claims

/-- Settles O38: the pushes leave the sequence reversed on the stack, and the pops take it from there. -/
theorem poppingReturnsThePushedSequenceReversed : Obligations.PoppingReturnsThePushedSequenceReversed := by
  intro s vs h
  refine ⟨_, pushAll_of_fits h, ?_⟩
  rw [← List.length_reverse]
  exact popMany_of_append vs.reverse s.stack s

end Sys2Proof.Proofs
end

section
/-! A well-formed instruction resolves its operands, so what it can still raise is its execution check (30_encoding.md R91;
60_exceptions.md R216 point 5). `Checked` is carried through an instruction's computation bind by bind. -/

namespace Sys2Proof.Machine

/-- The answer has the property, or the cause is no operand fault. -/
def Checked {α : Type} (P : α → Prop) : Except Cause α → Prop
  | .ok v => P v
  | .error c => c ≠ .invalidOperand ∧ c ≠ .invalidDestination

theorem Checked.bind {α β : Type} {P : α → Prop} {Q : β → Prop} {x : Except Cause α} {f : α → Except Cause β}
    (hx : Checked P x) (hf : ∀ v, P v → Checked Q (f v)) : Checked Q (x >>= f) := by
  cases x with
  | ok v => exact hf v hx
  | error c => exact hx

/-! ### The operations -/

theorem checked_readOp {w : Word} (h : isValueWord w = true) (s : State) : Checked (fun _ => True) (readOp w s) := by
  have hw : w.toNat ≤ 32775 := of_decide_eq_true h
  obtain ⟨-, e⟩ | ⟨i, -, e⟩ | ⟨hinv, -⟩ := readOp_cases w s
  · rw [e]; trivial
  · rw [e]; trivial
  · omega

theorem checked_destOp {w : Word} (h : isRegisterWord w = true) : Checked (fun _ => True) (destOp w) := by
  have hw : 32768 ≤ w.toNat ∧ w.toNat ≤ 32775 := by simpa [isRegisterWord] using h
  obtain ⟨i, -, e⟩ | ⟨hnone, -⟩ := destOp_cases w
  · rw [e]; trivial
  · omega

theorem checked_pushWord {s : State} (hs : s.status ≠ .faulted) (v : Word) :
    Checked (fun t => t.status ≠ .faulted) (pushWord v s) := by
  obtain ⟨-, e⟩ | ⟨-, e⟩ := pushWord_cases v s <;> rw [e]
  · exact hs
  · exact ⟨by decide, by decide⟩

theorem checked_memRead (addr : Word) (s : State) : Checked (fun _ => True) (memRead addr s) := by
  unfold memRead
  split
  · trivial
  · exact ⟨by decide, by decide⟩

theorem checked_memWrite {s : State} (hs : s.status ≠ .faulted) (addr v : Word) :
    Checked (fun t => t.status ≠ .faulted) (memWrite addr v s) := by
  obtain ⟨-, e⟩ | ⟨-, e⟩ := memWrite_cases addr v s <;> rw [e]
  · exact hs
  · exact ⟨by decide, by decide⟩

theorem checked_aluMod (vb vc : Word) : Checked (fun _ => True) (aluMod vb vc) := by
  unfold aluMod
  split
  · exact ⟨by decide, by decide⟩
  · trivial

/-! ### The shapes -/

theorem checked_unaryOp {f : Word → Except Cause Word} {a b : Word} {s : State} (hs : s.status ≠ .faulted)
    (ha : isRegisterWord a = true) (hb : isValueWord b = true) (hf : ∀ v, Checked (fun _ => True) (f v)) :
    Checked (fun t => t.status ≠ .faulted) (unaryOp f a b s) :=
  (checked_destOp ha).bind fun _ _ => (checked_readOp hb s).bind fun vb _ => (hf vb).bind fun _ _ => hs

theorem checked_binaryOp {f : Word → Word → Except Cause Word} {a b c : Word} {s : State} (hs : s.status ≠ .faulted)
    (ha : isRegisterWord a = true) (hb : isValueWord b = true) (hc : isValueWord c = true)
    (hf : ∀ v w, Checked (fun _ => True) (f v w)) : Checked (fun t => t.status ≠ .faulted) (binaryOp f a b c s) :=
  (checked_destOp ha).bind fun _ _ => (checked_readOp hb s).bind fun vb _ => (checked_readOp hc s).bind fun vc _ =>
    (hf vb vc).bind fun _ _ => hs

theorem checked_branchOp {a b : Word} {s : State} (hs : s.status ≠ .faulted) (ha : isValueWord a = true)
    (hb : isValueWord b = true) (selects : Word → Bool) :
    Checked (fun t => t.status ≠ .faulted) (branchOp selects a b s) :=
  (checked_readOp ha s).bind fun c _ => by
    cases selects c with
    | true => exact (checked_readOp hb s).bind fun _ _ => hs
    | false => exact hs

/-! ### The instructions -/

theorem isRegisterWord_of_wellFormed {i : Instr} (h : i.wellFormed = true) {a : Word} (ha : i.destination = some a) :
    isRegisterWord a = true := by
  have hdest := (Bool.and_eq_true_iff.1 h).1
  rwa [Instr.destinationOk, ha] at hdest

theorem isValueWord_of_wellFormed {i : Instr} (h : i.wellFormed = true) {w : Word} (hw : w ∈ i.operands) :
    isValueWord w = true :=
  List.all_eq_true.1 (Bool.and_eq_true_iff.1 h).2 w hw

/-- A well-formed instruction completes without a fault, or raises no operand fault. -/
theorem checked_exec {i : Instr} {s : State} (h : i.wellFormed = true) (hs : s.status ≠ .faulted) :
    ∃ r, exec i s = conclude s r ∧ Checked (fun t => t.status ≠ .faulted) r := by
  have hd {a : Word} : i.destination = some a → isRegisterWord a = true := isRegisterWord_of_wellFormed h
  have hv {w : Word} : w ∈ i.operands → isValueWord w = true := isValueWord_of_wellFormed h
  cases i with
  | halt => exact ⟨.ok _, exec_halt s, by simp [Checked]⟩
  | noop => exact ⟨.ok _, exec_noop s, hs⟩
  | set a b | not a b => exact ⟨_, rfl, checked_unaryOp hs (hd rfl) (hv (.tail _ (.head _))) fun _ => trivial⟩
  | rmem a b => exact ⟨_, rfl, checked_unaryOp hs (hd rfl) (hv (.tail _ (.head _))) fun addr => checked_memRead addr s⟩
  | eq a b c | gt a b c | add a b c | mult a b c | and a b c | or a b c =>
    exact ⟨_, rfl,
      checked_binaryOp hs (hd rfl) (hv (.tail _ (.head _))) (hv (.tail _ (.tail _ (.head _)))) fun _ _ => trivial⟩
  | mod a b c =>
    exact ⟨_, rfl, checked_binaryOp hs (hd rfl) (hv (.tail _ (.head _))) (hv (.tail _ (.tail _ (.head _)))) checked_aluMod⟩
  | jt a b | jf a b => exact ⟨_, rfl, checked_branchOp hs (hv (.head _)) (hv (.tail _ (.head _))) _⟩
  | jmp a | out a => exact ⟨_, rfl, (checked_readOp (hv (.head _)) s).bind fun _ _ => hs⟩
  | push a =>
    exact ⟨_, rfl, (checked_readOp (hv (.head _)) s).bind fun v _ => (checked_pushWord hs v).bind fun _ ht => ht⟩
  | call a =>
    exact ⟨_, rfl, (checked_readOp (hv (.head _)) s).bind fun _ _ => (checked_pushWord hs _).bind fun _ ht => ht⟩
  | wmem a b =>
    exact ⟨_, rfl, (checked_readOp (hv (.head _)) s).bind fun addr _ =>
      (checked_readOp (hv (.tail _ (.head _))) s).bind fun v _ => (checked_memWrite hs addr v).bind fun _ ht => ht⟩
  | pop a =>
    refine ⟨_, rfl, (checked_destOp (hd rfl)).bind fun d _ => ?_⟩
    unfold popWord
    cases s.stack with
    | nil => exact ⟨by decide, by decide⟩
    | cons v vs => exact hs
  | ret =>
    cases hstack : s.stack with
    | nil => exact ⟨.ok _, exec_ret_of_nil hstack, by simp [Checked]⟩
    | cons v vs => exact ⟨.ok _, exec_ret_of_cons hstack, hs⟩
  | inp a =>
    refine ⟨_, rfl, (checked_destOp (hd rfl)).bind fun d _ => ?_⟩
    cases s.inq with
    | cons ch rest => exact hs
    | nil =>
      cases s.inEof with
      | true => exact ⟨by decide, by decide⟩
      | false => exact hs

end Sys2Proof.Machine
end

section
/-! The statement about well-formed instructions (30_encoding.md R91). -/

namespace Sys2Proof.Proofs

open Sys2Proof.Machine

/-- Settles O8: the fault is the cause that the instruction's checked computation ends with. -/
theorem wellFormedInstructionsRaiseNoOperandFault : Obligations.WellFormedInstructionsRaiseNoOperandFault := by
  intro i s t hwf hs h ht
  obtain ⟨r, hr, hchecked⟩ := checked_exec hwf hs
  obtain rfl | ⟨c, rfl, rfl⟩ := conclude_next (hr.symm.trans h)
  · exact absurd ht hchecked
  · exact hchecked

end Sys2Proof.Proofs
end

section
/-! The output trace influences nothing (10_state.md R35): with other Words before it, every operation answers the same and leaves
the same Words before its own trace. The commutation is carried through an instruction's computation bind by bind. -/

namespace Sys2Proof.Machine

/-- The state with these Words output earlier. -/
def prependOutput (earlier : List Word) (s : State) : State := { s with outq := earlier ++ s.outq }

theorem bind_eq_map_bind {α : Type} {g : State → State} {x : Except Cause α} {f f' : α → Except Cause State}
    (h : ∀ v, f' v = (f v).map g) : (x >>= f') = (x >>= f).map g := by
  cases x with
  | ok v => exact h v
  | error c => rfl

theorem map_bind_eq_map_bind {g : State → State} {x : Except Cause State} {f f' : State → Except Cause State}
    (h : ∀ t, f' (g t) = (f t).map g) : (x.map g >>= f') = (x >>= f).map g := by
  cases x with
  | ok t => exact h t
  | error c => rfl

/-! ### The operations -/

theorem prependOutput_emit (earlier : List Word) (v : Word) (s : State) :
    prependOutput earlier (emit v s) = emit v (prependOutput earlier s) := by
  simp only [prependOutput, emit, List.append_assoc]

theorem map_ite_prependOutput (earlier : List Word) (p : Prop) [Decidable p] (x y : Except Cause State) :
    (if p then x else y).map (prependOutput earlier) =
      if p then x.map (prependOutput earlier) else y.map (prependOutput earlier) :=
  apply_ite _ p x y

theorem pushWord_prependOutput (earlier : List Word) (v : Word) (s : State) :
    pushWord v (prependOutput earlier s) = (pushWord v s).map (prependOutput earlier) :=
  (map_ite_prependOutput earlier _ (.error .stackOverflow) (.ok { s with stack := v :: s.stack })).symm

theorem memWrite_prependOutput (earlier : List Word) (addr v : Word) (s : State) :
    memWrite addr v (prependOutput earlier s) = (memWrite addr v s).map (prependOutput earlier) :=
  (map_ite_prependOutput earlier _ (.ok { s with mem := writeWord addr.toNat v s.mem }) (.error .outOfBounds)).symm

/-! ### The shapes -/

theorem unaryOp_prependOutput (earlier : List Word) (f : Word → Except Cause Word) (a b : Word) (s : State) :
    unaryOp f a b (prependOutput earlier s) = (unaryOp f a b s).map (prependOutput earlier) :=
  bind_eq_map_bind fun _ => bind_eq_map_bind fun _ => bind_eq_map_bind fun _ => rfl

theorem binaryOp_prependOutput (earlier : List Word) (f : Word → Word → Except Cause Word) (a b c : Word) (s : State) :
    binaryOp f a b c (prependOutput earlier s) = (binaryOp f a b c s).map (prependOutput earlier) :=
  bind_eq_map_bind fun _ => bind_eq_map_bind fun _ => bind_eq_map_bind fun _ => bind_eq_map_bind fun _ => rfl

theorem branchOp_prependOutput (earlier : List Word) (selects : Word → Bool) (a b : Word) (s : State) :
    branchOp selects a b (prependOutput earlier s) = (branchOp selects a b s).map (prependOutput earlier) :=
  bind_eq_map_bind fun c => by
    cases selects c with
    | true => exact bind_eq_map_bind fun _ => rfl
    | false => rfl

/-! ### The instructions and the step -/

theorem conclude_prependOutput {earlier : List Word} {s t : State} {r r' : Except Cause State}
    (hr : r' = r.map (prependOutput earlier)) (h : conclude s r = .next t) :
    conclude (prependOutput earlier s) r' = .next (prependOutput earlier t) := by
  rw [hr]
  cases r with
  | ok u => cases h; rfl
  | error c => cases h; rfl

/-- Two runs that are known to correspond, whatever next state the first is said to have. -/
theorem next_prependOutput {earlier : List Word} {i : Instr} {s t u : State} (h : exec i s = .next t) (hs : exec i s = .next u)
    (hs' : exec i (prependOutput earlier s) = .next (prependOutput earlier u)) :
    exec i (prependOutput earlier s) = .next (prependOutput earlier t) := by
  rw [hs] at h
  cases h
  exact hs'

theorem exec_prependOutput {i : Instr} {s t : State} (h : exec i s = .next t) (earlier : List Word) :
    exec i (prependOutput earlier s) = .next (prependOutput earlier t) := by
  cases i with
  | halt | noop =>
    cases h
    rfl
  | set a b | not a b | rmem a b => exact conclude_prependOutput (unaryOp_prependOutput earlier _ a b s) h
  | eq a b c | gt a b c | add a b c | mult a b c | mod a b c | and a b c | or a b c =>
    exact conclude_prependOutput (binaryOp_prependOutput earlier _ a b c s) h
  | jt a b | jf a b => exact conclude_prependOutput (branchOp_prependOutput earlier _ a b s) h
  | jmp a => exact conclude_prependOutput (bind_eq_map_bind fun _ => rfl) h
  | out a =>
    refine conclude_prependOutput (bind_eq_map_bind fun v => ?_) h
    rw [← prependOutput_emit]
    rfl
  | push a | call a =>
    refine conclude_prependOutput (bind_eq_map_bind fun v => ?_) h
    rw [pushWord_prependOutput]
    exact map_bind_eq_map_bind fun _ => rfl
  | wmem a b =>
    refine conclude_prependOutput (bind_eq_map_bind fun addr => bind_eq_map_bind fun v => ?_) h
    rw [memWrite_prependOutput]
    exact map_bind_eq_map_bind fun _ => rfl
  | pop a =>
    refine conclude_prependOutput (bind_eq_map_bind fun d => ?_) h
    simp only [popWord, prependOutput]
    cases s.stack <;> rfl
  | ret =>
    cases hs : s.stack with
    | nil => exact next_prependOutput h (exec_ret_of_nil hs) (exec_ret_of_nil hs)
    | cons v vs => exact next_prependOutput h (exec_ret_of_cons hs) (exec_ret_of_cons hs)
  | inp a =>
    obtain ⟨d, -, ha⟩ | ⟨-, ha⟩ := destOp_cases a
    · cases hq : s.inq with
      | cons ch rest => exact next_prependOutput h (exec_inp_of_cons ha hq) (exec_inp_of_cons ha hq)
      | nil =>
        cases he : s.inEof with
        | true => exact next_prependOutput h (exec_inp_of_ended ha hq he) (exec_inp_of_ended ha hq he)
        | false => exact next_prependOutput h (exec_inp_of_waiting ha hq he) (exec_inp_of_waiting ha hq he)
    · exact next_prependOutput h (exec_inp_of_destOp_error ha s) (exec_inp_of_destOp_error ha _)

theorem step_prependOutput {s t : State} (h : step s = .next t) (earlier : List Word) :
    step (prependOutput earlier s) = .next (prependOutput earlier t) := by
  obtain ⟨hl, ⟨hstop, rfl⟩ | ⟨hrun, hpc, rfl⟩ | ⟨hrun, hpc, i, hfetch, hexec⟩ | ⟨hrun, hpc, c, hfetch, rfl⟩⟩ := step_next h
  · refine step_of_stopped hl ?_
    cases hs : t.status with
    | running => exact absurd hs hstop
    | halted => exact .inl hs
    | faulted => exact .inr hs
  · exact step_of_pc_ge ⟨hl, hrun⟩ hpc
  · have hstep : step (prependOutput earlier s) = exec i (prependOutput earlier s) := step_of_fetch hl hrun hpc hfetch
    exact hstep.trans (exec_prependOutput hexec earlier)
  · exact step_of_fetch_error ⟨hl, hrun⟩ hpc hfetch

end Sys2Proof.Machine
end

section
/-! The statement about the output trace (10_state.md R35). -/

namespace Sys2Proof.Proofs

open Sys2Proof.Machine

/-- Settles O26: a step commutes with putting Words before the trace. -/
theorem earlierOutputInfluencesNothing : Obligations.EarlierOutputInfluencesNothing :=
  fun _ _ earlier h => step_prependOutput h earlier

end Sys2Proof.Proofs
end
